-- ==== Sys2Proof/Word.lean ====
section
/-! DEFINITION. The word types of the WIP frame packer: a byte of the frame buffer, a command word and a
128-bit value (spec/00_scope.md R5 and spec/30_encoding.md R60). -/

namespace Sys2Proof

/-- One byte of the frame buffer or of a command word (10_state.md R20). -/
abbrev Byte := BitVec 8

/-- One command word read as a little-endian integer: 22 bytes, 176 bits (30_encoding.md R60). -/
abbrev CmdWord := BitVec 176

/-- A value of the width of `RES`, of `d` and of a response's `val`: 128 bits (10_state.md R23). -/
abbrev Wide := BitVec 128

end Sys2Proof
end

