-- ==== Sys2Proof/Config.lean ====
section
/-! DEFINITION. The implementation parameters of spec/00_scope.md R5 that are fixed, and the bounds of the one
that is left open. `BUF_MAX` itself is the field `bufMax` of `State` (log entry 4), and the checksum accumulator
width `ACC_W` is no state and no rule depends on it (R5, 41_checksum.md R131): sums are unbounded naturals. `FIELD_MAX_W` is the
64 of `checkWidth`, `CMD_BYTES` the 22 of `decodeBytes`, and `RES_W` and `WIDE_W` the 128 of `Wide`. -/

namespace Sys2Proof.Config

/-- `CK_W`: the width of a checksum word and of the checksum, in bits (R5). -/
def ckW : Nat := 12

/-- `HDR16`: the length in bytes of the fixed header without the variant tail (R5). -/
def hdr16 : Nat := 16

/-- `HDR20`: the length in bytes of the fixed header with the variant tail (R5). -/
def hdr20 : Nat := 20

/-- `CK_OFF`: the bit offset of the `checksum` field in the header (R5). -/
def ckOff : Nat := 116

/-- The least `BUF_MAX` that R5 admits. -/
def bufMaxLow : Nat := 20

/-- The greatest `BUF_MAX` that R5 admits. -/
def bufMaxHigh : Nat := 65536

end Sys2Proof.Config
end

