-- ==== Sys2Proof/Machine/Params.lean ====
section
/-! DEFINITION. The value that the open parameter `BUF_MAX` has in `State.reset`. -/

namespace Sys2Proof.Machine

/-- The capacity `BUF_MAX` of the one instance that `State.reset` starts. DESIGN CHOICE, unsafe (log entry 4):
spec/00_scope.md R5 leaves it OPEN between 20 and 65536, and 64 is the value that the test vectors of
spec/95_test_vectors.md name. -/
def resetBufMax : Nat := 64

end Sys2Proof.Machine
end

