-- ==== Sys2Proof/Syntax.lean ====
section
/-! DEFINITION. The command set of spec/30_encoding.md R61: one constructor of `Instr` for each row of the opcode
table, with the operands that row reads and no others (R62). The names of the opcodes, and the
pseudo-instructions of R67, stand beside it. -/

namespace Sys2Proof

/-- The 15 commands. Counts, addresses, lengths, numbers and widths are naturals, since every check compares
them as naturals with no wrap (60_exceptions.md R183). `WellFormed` says which of them a command word can
hold. Stored values are bit vectors, cut to the part of `d` that the command reads. -/
inductive Instr
  | setlen (length : Nat)
  | ldb (addr : Nat) (byte : Byte)
  | rdb (addr : Nat)
  | setlayout (layout : Nat)
  | clrerr
  | rdcsr (csr : Nat)
  | extract (start width : Nat)
  | set (start width : Nat) (value : BitVec 64)
  | frd (field : Nat)
  | fwr (field : Nat) (value : BitVec 64)
  | rd128
  | wr128 (value : Wide)
  | calc12
  | embed (offset width : Nat)
  | verify (offset width : Nat)
  deriving DecidableEq, Repr

/-- The names of the 15 opcodes (R61). The numbers are `Opcode.code` of Decode.lean. -/
inductive Opcode
  | setlen | ldb | rdb | setlayout | clrerr | rdcsr
  | extract | set | frd | fwr | rd128 | wr128
  | calc12 | embed | verify
  deriving DecidableEq, Repr

/-- The pseudo-instructions of R67, the host's notation. `Machine.expandPseudo` gives their commands. -/
inductive Pseudo
  | embedh
  | verifyh
  | clrbuf (length : Nat)
  | ldbs (addr : Nat) (bytes : List Byte)
  deriving DecidableEq, Repr

end Sys2Proof
end

