-- ==== Sys2Proof/Machine/State.lean ====
section
/-! DEFINITION. The state of one WIP frame packer (spec/10_state.md R20 to R34), the reasons a step could stop
(none: spec/60_exceptions.md R190), and the state after reset (R33). -/

namespace Sys2Proof.Machine

/-- The error codes of `STATUS.ERR` and of a response: the five values of 60_exceptions.md R180. Codes 5, 6 and
7 are never produced, so the field is a five-constructor type (93_implementation_defined.md U10). -/
inductive Err
  | ok | op | width | range | name
  deriving DecidableEq, Repr

/-- `LAYOUT`, one bit: the field table that FRD and FWR use (10_state.md R22). -/
inductive Layout
  | h16 | h20
  deriving DecidableEq, Repr

/-- The response to one command (30_encoding.md R63). -/
structure Response where
  err : Err
  val : Wide
  deriving DecidableEq, Repr

/-- What the outside can do to the block between two commands (log entry 1). -/
inductive Input
  /-- The host presents a command word (00_scope.md R2, 10_state.md R28). -/
  | command (word : CmdWord)
  /-- The reset event (70_reset_and_hazards.md R210). -/
  | reset
  deriving DecidableEq, Repr

/-- The bytes of `BUF` that are not 0, by address, in canonical form (`Memory.wf`, log entry 8). -/
abbrev Memory := List Host.Cell

/-- One packer and its host's side of the interface. -/
structure State where
  /-- `BUF` (R20): the listed bytes. A byte below `len` that is not listed is 0. -/
  mem : Memory
  /-- `LEN`, control register 1 (R21). -/
  len : Nat
  /-- `LAYOUT`, control register 2 (R22). -/
  layout : Layout
  /-- `RES` (R23). -/
  res : Wide
  /-- `STATUS.ERR`, bits 2-0 of control register 0 (R24). -/
  err : Err
  /-- `STATUS.SERR`, bit 3 of control register 0 (R24). -/
  serr : Bool
  /-- `STATUS.VOK`, bit 4 of control register 0 (R24). -/
  vok : Bool
  /-- `BUFMAX`, control register 3: the parameter `BUF_MAX`, which nothing writes (R25, log entry 4). -/
  bufMax : Nat
  /-- The model's own: what the host has yet to present, oldest first (R28, log entry 1). -/
  pending : List Input
  /-- The model's own: the responses given so far, oldest first (R221, log entry 3). -/
  responses : List Response
  deriving DecidableEq, Repr

/-- The faults: none. Every command on every state ends in a step with a response, and the block has no stuck
state (60_exceptions.md R190, log entry 13). -/
inductive Fault
  deriving DecidableEq, Repr

/-- The refusals. -/
inductive Refusal
  /-- Raised by an arm of `exec` that has no meaning yet, by the instruction's mnemonic, and by nothing else.
  Safe: the model stops where the hardware goes on. No arm raises it in this model. -/
  | notModelled (mnemonic : String)
  deriving DecidableEq, Repr

/-- The state after reset: the table of R33, an empty buffer and zeros. The reset values are the spec's own
decision D7 (log entry 10). Nothing is pending and no response has been given. -/
def State.reset : State where
  mem := []
  len := 0
  layout := .h16
  res := 0
  err := .ok
  serr := false
  vok := false
  bufMax := resetBufMax
  pending := []
  responses := []

end Sys2Proof.Machine
end

