-- ==== Sys2Proof/Machine/FieldTable.lean ====
section
/-! DEFINITION. The field table, read-only constant data (spec/10_state.md R29): the rows of spec/30_encoding.md
R71 and R72, the lookup of R74, and the host's map from packet types to layouts (R76). The positions are kept as
one table (spec/93_implementation_defined.md U14). -/

namespace Sys2Proof.Machine

/-- The 19 field names of R73. `pktType` is the field that the spec calls `type`. -/
inductive FieldName
  | version | packetId | pktType
  | weatherFlag | temperatureFlag | popFlag | alertFlag | disasterFlag
  | exFlag | requestAuth | responseAuth | day | reserved | timestamp | areaCode | checksum
  | weatherCode | temperature | precipitation
  deriving DecidableEq, Repr

/-- One row of the field table: `(id, name, start_bit, width)` (10_state.md R29). -/
structure FieldEntry where
  id : Nat
  name : FieldName
  start : Nat
  width : Nat
  deriving DecidableEq, Repr

/-- The first 16 bytes (R71). Which of bits 19-23 is which flag is R75's order (log entry 6). -/
def headerRows : List FieldEntry :=
  [⟨0, .version, 0, 4⟩, ⟨1, .packetId, 4, 12⟩, ⟨2, .pktType, 16, 3⟩, ⟨3, .weatherFlag, 19, 1⟩,
   ⟨4, .temperatureFlag, 20, 1⟩, ⟨5, .popFlag, 21, 1⟩, ⟨6, .alertFlag, 22, 1⟩,
   ⟨7, .disasterFlag, 23, 1⟩] ++
  [⟨8, .exFlag, 24, 1⟩, ⟨9, .requestAuth, 25, 1⟩, ⟨10, .responseAuth, 26, 1⟩, ⟨11, .day, 27, 3⟩,
   ⟨12, .reserved, 30, 2⟩, ⟨13, .timestamp, 32, 64⟩, ⟨14, .areaCode, 96, 20⟩,
   ⟨15, .checksum, 116, 12⟩]

/-- The variant tail, bytes 16 to 19 (R72). -/
def tailRows : List FieldEntry :=
  [⟨16, .weatherCode, 128, 16⟩, ⟨17, .temperature, 144, 8⟩, ⟨18, .precipitation, 152, 8⟩]

/-- The table that a layout selects (10_state.md R22). -/
def fieldTable : Layout → List FieldEntry
  | .h16 => headerRows
  | .h20 => headerRows ++ tailRows

/-- `Lookup(layout, id)`: the start bit and the width of a field, none where the layout has no such field
(R74). -/
def lookup (l : Layout) (id : Nat) : Option (Nat × Nat) :=
  ((fieldTable l).find? fun r => r.id == id).map fun r => (r.start, r.width)

/-- The id that a field name stands for (R73). -/
def FieldName.id : FieldName → Nat
  | .version => 0
  | .packetId => 1
  | .pktType => 2
  | .weatherFlag => 3
  | .temperatureFlag => 4
  | .popFlag => 5
  | .alertFlag => 6
  | .disasterFlag => 7
  | .exFlag => 8
  | .requestAuth => 9
  | .responseAuth => 10
  | .day => 11
  | .reserved => 12
  | .timestamp => 13
  | .areaCode => 14
  | .checksum => 15
  | .weatherCode => 16
  | .temperature => 17
  | .precipitation => 18

/-- The layout that a host selects for a packet type, none for the unused type 6 (R76). The block itself never
reads the type to choose a layout (10_state.md R22). -/
def layoutOfType : BitVec 3 → Option Layout
  | 3 | 5 | 7 => some .h20
  | 6 => none
  | _ => some .h16

/-- The length in bytes of the fixed header of a layout (R70, R76). -/
def Layout.headerBytes : Layout → Nat
  | .h16 => Config.hdr16
  | .h20 => Config.hdr20

end Sys2Proof.Machine
end

