-- ==== Sys2Proof/Machine/Bytes.lean ====
section
/-! DEFINITION. Byte lists read as little-endian integers and as bit strings, and the two functions of the Bit
Frame on them: spec/00_scope.md R7 and section 7.1, spec/20_memory.md R40 to R43, spec/40_bitframe.md R100 and
R101. Every function is total. Outside the ranges the rules require, where no command calls it, its value is the
model's (log entry 11). -/

namespace Sys2Proof.Machine.Bytes

/-- `Bit(B, n)`: bit `n mod 8` of byte `n div 8` (R40). Past the end it is 0, which is `PBit` of R130. -/
def bit (B : List Byte) (n : Nat) : Nat := ((B.getD (n / 8) 0).toNat / 2 ^ (n % 8)) % 2

/-- `Int(B)`: the bytes as one little-endian unsigned integer (R41). -/
def toInt : List Byte → Nat
  | [] => 0
  | b :: bs => b.toNat + 256 * toInt bs

/-- The `n` low bytes of a natural, the least significant first: the inverse of `toInt` (R42). -/
def ofInt : Nat → Nat → List Byte
  | 0, _ => []
  | n + 1, v => BitVec.ofNat 8 v :: ofInt n (v / 256)

/-- `trunc_w(v)`: the low `w` bits of a natural (00_scope.md section 7.1). -/
def trunc (w v : Nat) : Nat := v % 2 ^ w

/-- `Extract(B, s, w) = (Int(B) div 2^s) mod 2^w` (R100). -/
def extract (B : List Byte) (s w : Nat) : Nat := trunc w (toInt B / 2 ^ s)

/-- `Insert(B, s, w, v)`, on the integer view of R101: the field's old value taken out, the truncated new
value put in, the length kept. -/
def insert (B : List Byte) (s w v : Nat) : List Byte :=
  ofInt B.length (toInt B - extract B s w * 2 ^ s + trunc w v * 2 ^ s)

/-- `MemRead(addr, n)`: `n` bytes from `addr` as a little-endian integer (00_scope.md section 7.1). -/
def memRead (B : List Byte) (addr n : Nat) : Nat := toInt ((B.drop addr).take n)

/-- `MemWrite(addr, n, v)`: the `n` bytes from `addr` replaced by the low bytes of `v` (00_scope.md
section 7.1). -/
def memWrite (B : List Byte) (addr n v : Nat) : List Byte :=
  B.take addr ++ ofInt n v ++ B.drop (addr + n)

/-- The buffer of SETLEN: cut at `n` bytes, or extended to `n` bytes with zeros (42_buffer_control.md R160). -/
def resize (B : List Byte) (n : Nat) : List Byte :=
  if n ≤ B.length then B.take n else B ++ List.replicate (n - B.length) 0

end Sys2Proof.Machine.Bytes
end

