-- ==== Sys2Proof/Machine/Flags.lean ====
section
/-! DEFINITION. `STATUS`: the three flags of the block (spec/10_state.md R24, R26), their numbers, and every
operation that writes one of them. There are no arithmetic flags (R26). -/

namespace Sys2Proof.Machine

/-- The code of an error (60_exceptions.md R180). -/
def Err.code : Err → Nat
  | .ok => 0
  | .op => 1
  | .width => 2
  | .range => 3
  | .name => 4

/-- The number of a layout, the value of `LAYOUT` (R22). -/
def Layout.number : Layout → Nat
  | .h16 => 0
  | .h20 => 1

/-- The layout with a number, if it names one (42_buffer_control.md R163). -/
def Layout.ofNumber : Nat → Option Layout
  | 0 => some .h16
  | 1 => some .h20
  | _ => none

/-- `STATUS` as RDCSR reads it: `ERR + 8 * SERR + 16 * VOK` (R24, 42_buffer_control.md R165). -/
def State.statusValue (s : State) : Nat := s.err.code + 8 * s.serr.toNat + 16 * s.vok.toNat

/-- A successful command latches code 0 and leaves the sticky flag (60_exceptions.md R186). -/
def State.latchOk (s : State) : State := { s with err := .ok }

/-- A failing command latches its code and sets the sticky flag (60_exceptions.md R186). -/
def State.latchErr (s : State) (e : Err) : State := { s with err := e, serr := true }

/-- CLRERR's effect on the sticky flag (42_buffer_control.md R164). -/
def State.clearSerr (s : State) : State := { s with serr := false }

/-- VERIFY's effect on `VOK` (41_checksum.md R137). -/
def State.setVok (s : State) (v : Bool) : State := { s with vok := v }

end Sys2Proof.Machine
end

