-- ==== Sys2Proof/Machine/Ops.lean ====
section
/-! DEFINITION. The shared operations of every command: the buffer as cells and as a byte list
(spec/10_state.md R20, R21), the registers, the response (spec/30_encoding.md R63), the two ends of a command,
an error (spec/60_exceptions.md R185, R186) and a success (R62), and the reset event
(spec/70_reset_and_hazards.md R210). -/

namespace Sys2Proof.Machine

/-- What a byte of the buffer reads as when no cell lists it: SETLEN fills new bytes with 0, and there are no
uninitialised bytes (10_state.md R21, log entry 8). -/
def Memory.blank : Byte := 0

/-- The byte a memory holds at an address. -/
def Memory.read : Memory → Nat → Byte
  | [], _ => Memory.blank
  | (k, b) :: cells, a => if k = a then b else Memory.read cells a

/-- The cells are at `lo` or above, their addresses rise strictly, and none holds the blank byte. -/
def Memory.wfFrom : Nat → Memory → Bool
  | _, [] => true
  | lo, (k, b) :: cells => decide (lo ≤ k) && (b != Memory.blank) && Memory.wfFrom (k + 1) cells

/-- The canonical form: equal buffers are equal lists of cells. -/
def Memory.wf (m : Memory) : Bool := Memory.wfFrom 0 m

/-- The cells of a byte list whose first byte stands at `lo`. -/
def Memory.ofBytesFrom : Nat → List Byte → Memory
  | _, [] => []
  | lo, b :: bs =>
    if b = Memory.blank then Memory.ofBytesFrom (lo + 1) bs
    else (lo, b) :: Memory.ofBytesFrom (lo + 1) bs

/-- The cells of a byte list, in canonical form. -/
def Memory.ofBytes (B : List Byte) : Memory := Memory.ofBytesFrom 0 B

/-- `BUF` as the list of its `LEN` bytes (R20). Cells at `LEN` and above, which no run makes, do not exist for
any command (R21, log entry 9). -/
def State.buf (s : State) : List Byte := (List.range s.len).map s.mem.read

/-- `BUF <- B` and `LEN <- len(B)`. -/
def State.setBuf (s : State) (B : List Byte) : State :=
  { s with mem := Memory.ofBytes B, len := B.length }

/-- One byte of the buffer, none at `LEN` and above, where no byte exists (R21). -/
def State.readByte (s : State) (a : Nat) : Option Byte :=
  if a < s.len then some (s.mem.read a) else none

/-- One bit of the buffer: bit `n mod 8` of byte `n div 8` (00_scope.md R7), false past the end. -/
def State.readBit (s : State) (n : Nat) : Bool :=
  match s.readByte (n / 8) with
  | some b => b.getLsbD (n % 8)
  | none => false

/-- `LAYOUT <- l` (42_buffer_control.md R163). -/
def State.setLayout (s : State) (l : Layout) : State := { s with layout := l }

/-- `RES <- v` (10_state.md R23). -/
def State.setRes (s : State) (v : Wide) : State := { s with res := v }

/-- `zext_128(v)` of a value that fits 128 bits (00_scope.md section 7.1). -/
def zext128 (v : Nat) : Wide := BitVec.ofNat 128 v

/-- The response to the command that ends (30_encoding.md R63). -/
def State.respond (s : State) (e : Err) (v : Wide) : State :=
  { s with responses := s.responses ++ [⟨e, v⟩] }

/-- `raise Err(code)`, the one operation by which a command fails: the code is latched, the sticky flag is set,
the response is `(code, 0)`, and nothing else changes (30_encoding.md R62, 60_exceptions.md R185, R186). There is
no trap to enter and none to return from (R188). -/
def State.raiseErr (s : State) (e : Err) : State := (s.latchErr e).respond e 0

/-- The end of a successful command that produces no value: `ERR <- 0`, response `(0, 0)`, `RES` as it was
(30_encoding.md R62, R63). -/
def State.finish (s : State) : State := s.latchOk.respond .ok 0

/-- The end of a successful command that produces `v`: `RES <- v`, `ERR <- 0`, response `(0, v)`
(30_encoding.md R62, R63). -/
def State.finishWith (s : State) (v : Wide) : State := (s.setRes v).latchOk.respond .ok v

/-- The outline of a command (30_encoding.md R62): its check first, and only if that finds no error its effect.
The effect is a function, so that nothing of it is computed when the check fails. -/
def runChecked (check : Option Err) (s : State) (effect : State → State) :
    Host.Outcome State Fault Refusal :=
  match check with
  | some e => .next (s.raiseErr e)
  | none => .next (effect s)

/-- The reset event: every register takes its reset value and the buffer is empty (R210, 10_state.md R33). The
parameter `BUF_MAX` and the host's side of the interface stay (log entry 3). -/
def State.resetEvent (s : State) : State :=
  { State.reset with bufMax := s.bufMax, pending := s.pending, responses := s.responses }

end Sys2Proof.Machine
end

