-- ==== Sys2Proof/Machine/Operands.lean ====
section
/-! DEFINITION. The checks of a command's operands, each answering the error it finds or none
(spec/60_exceptions.md R182 to R184), and the reading of a control register (spec/10_state.md R25). All
comparisons are on naturals with no wrap (R183). -/

namespace Sys2Proof.Machine

/-- The first error of two checks made in order (60_exceptions.md R187). -/
def firstErr (first second : Option Err) : Option Err :=
  match first with
  | some e => some e
  | none => second

/-- ERR_WIDTH: the width is 0 or above 64 (R182). -/
def checkWidth (w : Nat) : Option Err :=
  if w = 0 ∨ 64 < w then some .width else none

/-- ERR_RANGE of a bit range: `s + w > 8 * LEN` (R183, 20_memory.md R48). -/
def State.checkBits (s : State) (start w : Nat) : Option Err :=
  if 8 * s.len < start + w then some .range else none

/-- ERR_RANGE of a byte address: `a >= LEN` (R183). -/
def State.checkByte (s : State) (a : Nat) : Option Err :=
  if s.len ≤ a then some .range else none

/-- ERR_RANGE of a new length: `a > BUF_MAX` (R183). -/
def State.checkLength (s : State) (n : Nat) : Option Err :=
  if s.bufMax < n then some .range else none

/-- ERR_RANGE of the wide commands: `LEN < 16` (R183). -/
def State.checkHeader (s : State) : Option Err :=
  if s.len < 16 then some .range else none

/-- The checks of EXTRACT, SET, EMBED and VERIFY: width, then range (R187). -/
def State.checkField (s : State) (start w : Nat) : Option Err :=
  firstErr (checkWidth w) (s.checkBits start w)

/-- The checks of FRD and FWR: name, then the range of the field found (R187). -/
def State.checkNamed (s : State) (id : Nat) : Option Err :=
  match lookup s.layout id with
  | none => some .name
  | some (start, w) => s.checkBits start w

/-- The place of a named field. The pair for a name that the layout lacks is used by no command, since
`checkNamed` stops it first (log entry 11). -/
def State.namedField (s : State) (id : Nat) : Nat × Nat := (lookup s.layout id).getD (0, 0)

/-- The value of a control register, none where the number names nothing (10_state.md R25). -/
def State.csr (s : State) : Nat → Option Nat
  | 0 => some s.statusValue
  | 1 => some s.len
  | 2 => some s.layout.number
  | 3 => some s.bufMax
  | _ => none

/-- ERR_NAME of a control register number above 3 (R184). -/
def State.checkCsr (s : State) (c : Nat) : Option Err :=
  if (s.csr c).isNone then some .name else none

/-- ERR_NAME of a layout number above 1 (R184). -/
def checkLayout (l : Nat) : Option Err :=
  if (Layout.ofNumber l).isNone then some .name else none

end Sys2Proof.Machine
end

