-- ==== Sys2Proof/Machine/BitFrame.lean ====
section
/-! DEFINITION. The Bit Frame family: EXTRACT, SET, FRD, FWR, RD128, WR128 (spec/40_bitframe.md R102 to R107). -/

namespace Sys2Proof.Machine

/-- EXTRACT: `RES <- Extract(BUF, a, w)` (R102). -/
def execExtract (start w : Nat) (s : State) : Host.Outcome State Fault Refusal :=
  runChecked (s.checkField start w) s fun s => s.finishWith (zext128 (Bytes.extract s.buf start w))

/-- SET: `BUF <- Insert(BUF, a, w, d[63:0])` (R103). -/
def execSet (start w : Nat) (v : BitVec 64) (s : State) : Host.Outcome State Fault Refusal :=
  runChecked (s.checkField start w) s fun s =>
    (s.setBuf (Bytes.insert s.buf start w v.toNat)).finish

/-- FRD: `RES <- Extract(BUF, s, fw)` with the place that the layout gives the field (R104). -/
def execFrd (id : Nat) (s : State) : Host.Outcome State Fault Refusal :=
  runChecked (s.checkNamed id) s fun s =>
    s.finishWith (zext128 (Bytes.extract s.buf (s.namedField id).1 (s.namedField id).2))

/-- FWR: `BUF <- Insert(BUF, s, fw, d[63:0])` with the place that the layout gives the field (R105). -/
def execFwr (id : Nat) (v : BitVec 64) (s : State) : Host.Outcome State Fault Refusal :=
  runChecked (s.checkNamed id) s fun s =>
    (s.setBuf (Bytes.insert s.buf (s.namedField id).1 (s.namedField id).2 v.toNat)).finish

/-- RD128: `RES <- MemRead(0, 16)` (R106). -/
def execRd128 (s : State) : Host.Outcome State Fault Refusal :=
  runChecked s.checkHeader s fun s => s.finishWith (zext128 (Bytes.memRead s.buf 0 16))

/-- WR128: `MemWrite(0, 16, d)` (R107). -/
def execWr128 (v : Wide) (s : State) : Host.Outcome State Fault Refusal :=
  runChecked s.checkHeader s fun s =>
    (s.setBuf (Bytes.memWrite s.buf 0 16 v.toNat)).finish

end Sys2Proof.Machine
end

