-- ==== Sys2Proof/Machine/Buffer.lean ====
section
/-! DEFINITION. The buffer and control family: SETLEN, LDB, RDB, SETLAYOUT, CLRERR, RDCSR
(spec/42_buffer_control.md R160 to R165). -/

namespace Sys2Proof.Machine

/-- SETLEN: the buffer cut or extended with zeros, `LEN <- n` (R160). -/
def execSetlen (n : Nat) (s : State) : Host.Outcome State Fault Refusal :=
  runChecked (s.checkLength n) s fun s => (s.setBuf (Bytes.resize s.buf n)).finish

/-- LDB: `BUF[a] <- d[7:0]` (R161). -/
def execLdb (a : Nat) (b : Byte) (s : State) : Host.Outcome State Fault Refusal :=
  runChecked (s.checkByte a) s fun s => (s.setBuf (Bytes.memWrite s.buf a 1 b.toNat)).finish

/-- RDB: `RES <- BUF[a]` (R162). -/
def execRdb (a : Nat) (s : State) : Host.Outcome State Fault Refusal :=
  runChecked (s.checkByte a) s fun s => s.finishWith (zext128 (Bytes.memRead s.buf a 1))

/-- SETLAYOUT: `LAYOUT <- a` (R163). -/
def execSetlayout (l : Nat) (s : State) : Host.Outcome State Fault Refusal :=
  runChecked (checkLayout l) s fun s => (s.setLayout ((Layout.ofNumber l).getD .h16)).finish

/-- CLRERR: `SERR <- 0` (R164). -/
def execClrerr (s : State) : Host.Outcome State Fault Refusal :=
  runChecked none s fun s => s.clearSerr.finish

/-- RDCSR: `RES <-` the control register as it was before this command (R165). -/
def execRdcsr (c : Nat) (s : State) : Host.Outcome State Fault Refusal :=
  runChecked (s.checkCsr c) s fun s => s.finishWith (zext128 ((s.csr c).getD 0))

end Sys2Proof.Machine
end

