-- ==== Sys2Proof/Machine/Checksum.lean ====
section
/-! DEFINITION. The checksum (spec/41_checksum.md R130 to R134) and its family: CALC, EMBED, VERIFY (R135 to
R137). Every one of them covers all of the buffer, once (R138). -/

namespace Sys2Proof.Machine

/-- The 12-bit words of an integer, `n` of them, the lowest first. -/
def wordsOfInt : Nat → Nat → List Nat
  | 0, _ => []
  | n + 1, v => v % 4096 :: wordsOfInt n (v / 4096)

/-- `NW(L)`: the number of 12-bit words of `L` bytes, the last one zero-padded (R130). -/
def numWords (L : Nat) : Nat := (8 * L + 11) / 12

/-- The words of a byte list: word `k` is bits `12k .. 12k + 11` of the least-significant-bit-first stream (R130,
decision D15, log entry 5). -/
def checkWords (B : List Byte) : List Nat := wordsOfInt (numWords B.length) (Bytes.toInt B)

/-- `Sum(B)`, a natural number (R131). -/
def sumWords (B : List Byte) : Nat := (checkWords B).sum

/-- The loop of `Fold12`, with a bound on its passes: while anything stands at bit 12 or above, add it to the low
12 bits (R132). -/
def foldLoop : Nat → Nat → Nat
  | 0, t => t
  | passes + 1, t => if t / 4096 = 0 then t else foldLoop passes (t % 4096 + t / 4096)

/-- `Fold12(t)`. The bound `t` is never met, because each pass makes a number of 4096 or more strictly smaller
(R132). -/
def fold12 (t : Nat) : Nat := foldLoop t t

/-- `NOT12(v)`: the complement of a 12-bit value (R133). -/
def not12 (v : Nat) : Nat := 4095 - v

/-- `Calc12(B)`: sum, fold, complement (R134). -/
def calc12 (B : List Byte) : Nat := not12 (fold12 (sumWords B))

/-- The checksum that EMBED stores and VERIFY recomputes: that of the buffer with the field zeroed (R136,
R137). -/
def checksumZeroed (B : List Byte) (off w : Nat) : Nat := calc12 (Bytes.insert B off w 0)

/-- EMBED's buffer: the field zeroed, then the checksum written into it, truncated to its width (R136, R145). -/
def embedBytes (B : List Byte) (off w : Nat) : List Byte :=
  Bytes.insert (Bytes.insert B off w 0) off w (checksumZeroed B off w)

/-- VERIFY's comparison of the stored field with the recomputed checksum, as integers (R137). -/
def verifyBytes (B : List Byte) (off w : Nat) : Bool :=
  decide (Bytes.extract B off w = checksumZeroed B off w)

/-- CALC: `RES <- Calc12(BUF)`, nothing zeroed (R135). -/
def execCalc12 (s : State) : Host.Outcome State Fault Refusal :=
  runChecked none s fun s => s.finishWith (zext128 (calc12 s.buf))

/-- EMBED: the buffer of `embedBytes`, and the whole checksum in `RES` (R136). -/
def execEmbed (off w : Nat) (s : State) : Host.Outcome State Fault Refusal :=
  runChecked (s.checkField off w) s fun s =>
    (s.setBuf (embedBytes s.buf off w)).finishWith (zext128 (checksumZeroed s.buf off w))

/-- VERIFY: 1 or 0 in `VOK` and in `RES`, and the buffer as it was (R137). -/
def execVerify (off w : Nat) (s : State) : Host.Outcome State Fault Refusal :=
  runChecked (s.checkField off w) s fun s =>
    (s.setVok (verifyBytes s.buf off w)).finishWith (zext128 (verifyBytes s.buf off w).toNat)

end Sys2Proof.Machine
end

