-- ==== Sys2Proof/Machine/Dispatch.lean ====
section
/-! DEFINITION. One command executed: one arm for each constructor of `Instr`. -/

namespace Sys2Proof.Machine

def exec (i : Instr) (s : State) : Host.Outcome State Fault Refusal :=
  match i with
  | .setlen n => Sys2Proof.Machine.execSetlen n s
  | .ldb a b => Sys2Proof.Machine.execLdb a b s
  | .rdb a => Sys2Proof.Machine.execRdb a s
  | .setlayout l => Sys2Proof.Machine.execSetlayout l s
  | .clrerr => Sys2Proof.Machine.execClrerr s
  | .rdcsr c => Sys2Proof.Machine.execRdcsr c s
  | .extract a w => Sys2Proof.Machine.execExtract a w s
  | .set a w v => Sys2Proof.Machine.execSet a w v s
  | .frd f => Sys2Proof.Machine.execFrd f s
  | .fwr f v => Sys2Proof.Machine.execFwr f v s
  | .rd128 => Sys2Proof.Machine.execRd128 s
  | .wr128 v => Sys2Proof.Machine.execWr128 v s
  | .calc12 => Sys2Proof.Machine.execCalc12 s
  | .embed a w => Sys2Proof.Machine.execEmbed a w s
  | .verify a w => Sys2Proof.Machine.execVerify a w s

end Sys2Proof.Machine
end

