-- ==== Sys2Proof/WellFormed.lean ====
section
/-! DEFINITION. Which terms of `Instr` a command word can spell: the operand `a` has 32 bits and the width `w` has
8 (spec/30_encoding.md R60). An operand outside a command's LEGAL set is well formed all the same, since R65 gives
it a defined error. -/

namespace Sys2Proof

/-- The operand fits the 32 bits of the field `a` (R60). -/
abbrev fitsA (a : Nat) : Bool := decide (a < 2 ^ 32)

/-- The width fits the 8 bits of the field `w` (R60). -/
abbrev fitsW (w : Nat) : Bool := decide (w < 2 ^ 8)

/-- The checks of a command term, by constructor. -/
def Instr.wellFormed : Instr → Bool
  | .setlen n => fitsA n
  | .ldb a _ => fitsA a
  | .rdb a => fitsA a
  | .setlayout l => fitsA l
  | .clrerr => true
  | .rdcsr c => fitsA c
  | .extract s w => fitsA s && fitsW w
  | .set s w _ => fitsA s && fitsW w
  | .frd f => fitsA f
  | .fwr f _ => fitsA f
  | .rd128 => true
  | .wr128 _ => true
  | .calc12 => true
  | .embed s w => fitsA s && fitsW w
  | .verify s w => fitsA s && fitsW w

/-- A term that some command word spells. -/
abbrev WellFormed (i : Instr) : Prop := i.wellFormed = true

end Sys2Proof
end

