-- ==== Sys2Proof/Decode.lean ====
section
/-! DEFINITION. The decoder and the encoder, from one table of opcodes: spec/30_encoding.md R60 to R66. The opcode
alone selects the command, and a field the command does not read has no effect (R62). -/

namespace Sys2Proof

/-- Why bytes spell no command. -/
inductive DecodeError
  /-- Fewer than 22 bytes are no command word (R60). Only `decodeBytes` answers this: a command that the host
  presents has its 22 bytes by type. -/
  | shortWord (bytes : Nat)
  /-- The opcode is one of the 241 that R64 reserves. The step turns it into ERR_OP (60_exceptions.md R181). -/
  | reservedOpcode (op : Byte)
  deriving DecidableEq, Repr

/-- Every opcode, in the order of R61. -/
def Opcode.all : List Opcode :=
  [.setlen, .ldb, .rdb, .setlayout, .clrerr, .rdcsr, .extract, .set, .frd, .fwr, .rd128, .wr128,
   .calc12, .embed, .verify]

/-- The number of an opcode (R61, column `op`). -/
def Opcode.code : Opcode → Byte
  | .setlen => 0x01
  | .ldb => 0x02
  | .rdb => 0x03
  | .setlayout => 0x04
  | .clrerr => 0x05
  | .rdcsr => 0x06
  | .extract => 0x10
  | .set => 0x11
  | .frd => 0x12
  | .fwr => 0x13
  | .rd128 => 0x14
  | .wr128 => 0x15
  | .calc12 => 0x20
  | .embed => 0x21
  | .verify => 0x22

/-- The opcode with a number, if R61 lists one. -/
def Opcode.ofCode (b : Byte) : Option Opcode := Opcode.all.find? fun o => o.code == b

/-- The field `op`, bits 7-0 of the word (R60). -/
def opField (c : CmdWord) : Byte := c.extractLsb' 0 8

/-- The field `w`, bits 15-8 of the word (R60). -/
def wField (c : CmdWord) : BitVec 8 := c.extractLsb' 8 8

/-- The field `a`, bits 47-16 of the word (R60). -/
def aField (c : CmdWord) : BitVec 32 := c.extractLsb' 16 32

/-- The field `d`, bits 175-48 of the word (R60). -/
def dField (c : CmdWord) : Wide := c.extractLsb' 48 128

/-- The operands of a command, each taken from its field as it stands (R61). -/
def Opcode.operands (o : Opcode) (c : CmdWord) : Instr :=
  match o with
  | .setlen => .setlen (aField c).toNat
  | .ldb => .ldb (aField c).toNat ((dField c).extractLsb' 0 8)
  | .rdb => .rdb (aField c).toNat
  | .setlayout => .setlayout (aField c).toNat
  | .clrerr => .clrerr
  | .rdcsr => .rdcsr (aField c).toNat
  | .extract => .extract (aField c).toNat (wField c).toNat
  | .set => .set (aField c).toNat (wField c).toNat ((dField c).extractLsb' 0 64)
  | .frd => .frd (aField c).toNat
  | .fwr => .fwr (aField c).toNat ((dField c).extractLsb' 0 64)
  | .rd128 => .rd128
  | .wr128 => .wr128 (dField c)
  | .calc12 => .calc12
  | .embed => .embed (aField c).toNat (wField c).toNat
  | .verify => .verify (aField c).toNat (wField c).toNat

/-- The decoder on a command word: total, one of the 15 commands or a rejection by name (R62, R64). -/
def decode (c : CmdWord) : Except DecodeError Instr :=
  match Opcode.ofCode (opField c) with
  | some o => .ok (o.operands c)
  | none => .error (.reservedOpcode (opField c))

/-- The word of 22 bytes, byte 0 of the word being the least significant (R60). -/
def wordOfBytes (bs : List Byte) : CmdWord := BitVec.ofNat 176 (Machine.Bytes.toInt bs)

/-- The decoder on any bytes: it consumes 22 of them (R60) and answers the command with the bytes after it. -/
def decodeBytes (bs : List Byte) : Except DecodeError (Instr × List Byte) :=
  if bs.length < 22 then .error (.shortWord bs.length)
  else
    match decode (wordOfBytes (bs.take 22)) with
    | .ok i => .ok (i, bs.drop 22)
    | .error e => .error e

/-- The opcode of a command. -/
def Instr.opcode : Instr → Opcode
  | .setlen _ => .setlen
  | .ldb _ _ => .ldb
  | .rdb _ => .rdb
  | .setlayout _ => .setlayout
  | .clrerr => .clrerr
  | .rdcsr _ => .rdcsr
  | .extract _ _ => .extract
  | .set _ _ _ => .set
  | .frd _ => .frd
  | .fwr _ _ => .fwr
  | .rd128 => .rd128
  | .wr128 _ => .wr128
  | .calc12 => .calc12
  | .embed _ _ => .embed
  | .verify _ _ => .verify

/-- The value an assembled word holds in `w`: 0 where the command ignores it (R66). -/
def Instr.wOperand : Instr → Nat
  | .extract _ w | .set _ w _ | .embed _ w | .verify _ w => w
  | .setlen _ | .ldb _ _ | .rdb _ | .setlayout _ | .clrerr | .rdcsr _ | .frd _ | .fwr _ _
  | .rd128 | .wr128 _ | .calc12 => 0

/-- The value an assembled word holds in `a`: 0 where the command ignores it (R66). -/
def Instr.aOperand : Instr → Nat
  | .setlen a | .ldb a _ | .rdb a | .setlayout a | .rdcsr a | .extract a _ | .set a _ _ | .frd a
  | .fwr a _ | .embed a _ | .verify a _ => a
  | .clrerr | .rd128 | .wr128 _ | .calc12 => 0

/-- The value an assembled word holds in `d`: 0 in every bit the command ignores (R66). -/
def Instr.dOperand : Instr → Wide
  | .ldb _ b => b.setWidth 128
  | .set _ _ v | .fwr _ v => v.setWidth 128
  | .wr128 v => v
  | .setlen _ | .rdb _ | .setlayout _ | .clrerr | .rdcsr _ | .extract _ _ | .frd _ | .rd128
  | .calc12 | .embed _ _ | .verify _ _ => 0

/-- The four fields put together, `d` highest and `op` lowest (R60). -/
def assemble (op : Byte) (w : BitVec 8) (a : BitVec 32) (d : Wide) : CmdWord := d ++ a ++ w ++ op

/-- The encoder: the assembled word of a well-formed command (R60, R61, R66). -/
def encode (i : Instr) : CmdWord :=
  assemble i.opcode.code (BitVec.ofNat 8 i.wOperand) (BitVec.ofNat 32 i.aOperand) i.dOperand

/-- The 22 bytes of the assembled word, byte 0 first (R60). -/
def encodeBytes (i : Instr) : List Byte := Machine.Bytes.ofInt 22 (encode i).toNat

/-- The instruction that the decoder reads from an instruction whose bits are `w`, numbered as the opcode table
numbers them. Every bit above `nbits` is 0. -/
def decodeTableWord (nbits w : Nat) : Option Instr :=
  match decode (BitVec.ofNat 176 (w % 2 ^ nbits)) with
  | .ok i => some i
  | .error _ => none

end Sys2Proof
end

