-- ==== Sys2Proof/Machine/Present.lean ====
section
/-! DEFINITION. How a command reaches the block. There is no fetch and no program counter (spec/00_scope.md R2,
spec/10_state.md R28): the host presents command words one at a time, and the model holds those it has yet to
present in `pending` (log entry 1). -/

namespace Sys2Proof.Machine

/-- What the block meets at its next step, with the state in which it meets it. -/
inductive Presented
  /-- A word that spells a command. -/
  | command (i : Instr) (s : State)
  /-- A word with a reserved opcode. -/
  | reserved (s : State)
  /-- The reset event. -/
  | reset (s : State)
  /-- The host presents nothing. -/
  | nothing (s : State)
  deriving DecidableEq, Repr

/-- The oldest input taken from the host and, where it is a command word, decoded (30_encoding.md R62, R64). -/
def State.present (s : State) : Presented :=
  match s.pending with
  | [] => .nothing s
  | .reset :: rest => .reset { s with pending := rest }
  | .command c :: rest =>
    match decode c with
    | .ok i => .command i { s with pending := rest }
    | .error _ => .reserved { s with pending := rest }

/-- A reserved opcode: ERR_OP, whatever the other fields hold (60_exceptions.md R181). -/
def execReserved (s : State) : Host.Outcome State Fault Refusal := .next (s.raiseErr .op)

/-- The reset event as a step (70_reset_and_hazards.md R210). -/
def execResetEvent (s : State) : Host.Outcome State Fault Refusal := .next s.resetEvent

/-- No input: the block waits for the host, and its state stays as it is (log entry 2). -/
def execNothing (s : State) : Host.Outcome State Fault Refusal := .next s

/-- The state with a command word as the very next input. -/
def State.presentWord (s : State) (c : CmdWord) : State :=
  { s with pending := .command c :: s.pending }

/-- The state to which the host will present these commands, in this order, after what it already has to
present (70_reset_and_hazards.md R221). -/
def State.presentAll (s : State) (cs : List Instr) : State :=
  { s with pending := s.pending ++ cs.map fun i => .command (encode i) }

end Sys2Proof.Machine
end

