-- ==== Sys2Proof/Machine/Step.lean ====
section
/-! DEFINITION. One step: one input of the host taken and carried out to its end (spec/00_scope.md R6). -/

namespace Sys2Proof.Machine

/-- One step of the packer. -/
def step (s : State) : Host.Outcome State Fault Refusal :=
  match s.present with
  | .command i s' => exec i s'
  | .reserved s' => execReserved s'
  | .reset s' => execResetEvent s'
  | .nothing s' => execNothing s'

/-- The state with the instruction whose bits are `w` (every bit above `nbits` being 0) as the host's very next
command: the block does not fetch, so this stands for the host's presenting it (log entry 1). -/
def State.withFetchWord (s : State) (nbits w : Nat) : State :=
  s.presentWord (BitVec.ofNat 176 (w % 2 ^ nbits))

end Sys2Proof.Machine
end

