-- ==== Sys2Proof/Machine/HostOrder.lean ====
section
/-! DEFINITION. The host's side of the use of the block, as data: the pseudo-instructions (spec/30_encoding.md
R67), the orders of a serialize and of a parse (spec/70_reset_and_hazards.md R212, R213) and the header of an
extension entry (R78). No step depends on any of it (log entry 12). -/

namespace Sys2Proof.Machine

/-- The expansion of a pseudo-instruction (R67). -/
def expandPseudo : Pseudo → List Instr
  | .embedh => [.embed Config.ckOff Config.ckW]
  | .verifyh => [.verify Config.ckOff Config.ckW]
  | .clrbuf n => [.setlen 0, .setlen n]
  | .ldbs addr bytes => bytes.mapIdx fun i b => .ldb (addr + i) b

/-- One field write of a serialize: `FWR name, value`. -/
def writeField (f : FieldName × BitVec 64) : Instr := .fwr f.1.id f.2

/-- The command order of a serialize (R212): an all-zero buffer of the packet's length, the layout, the fields,
`ex_flag` if there is an extension block, the extension block's bytes, EMBED last, and the packet read out. -/
def serialize (l : Layout) (fields : List (FieldName × BitVec 64)) (ext : List Byte) : List Instr :=
  expandPseudo (.clrbuf (l.headerBytes + ext.length)) ++
  [.setlayout l.number] ++
  fields.map writeField ++
  (if ext.isEmpty then [] else [.fwr FieldName.exFlag.id 1]) ++
  expandPseudo (.ldbs l.headerBytes ext) ++
  expandPseudo .embedh ++
  (List.range (l.headerBytes + ext.length)).map .rdb

/-- The first step of a parse (R213): the received bytes loaded. -/
def parseLoad (bytes : List Byte) : List Instr :=
  .setlen bytes.length :: expandPseudo (.ldbs 0 bytes)

/-- The second and third steps of a parse (R213): the type read, and the checksum verified. `parseVerdict` is what
the host makes of the two values. -/
def parseCheck : List Instr := .frd FieldName.pktType.id :: expandPseudo .verifyh

/-- The fourth step of a parse (R213): the layout of the type, and the fields wanted. -/
def parseFields (l : Layout) (names : List FieldName) : List Instr :=
  .setlayout l.number :: names.map fun f => .frd f.id

/-- The fifth step of a parse (R213): the bytes of the extension block, from byte 16 or 20 to the end of the `n`
bytes received. -/
def parseExtension (l : Layout) (n : Nat) : List Instr :=
  (List.range' l.headerBytes (n - l.headerBytes)).map .rdb

/-- The fifth step of a parse by EXTRACT (R213, R78): the length and the id of the extension entry that starts at
bit `e`. -/
def parseEntryHeader (e : Nat) : List Instr := [.extract e 10, .extract (e + 10) 6]

/-- The payload of an extension entry of 1 to 8 bytes that starts at bit `e`, as one field (R213, R78). -/
def parseEntryPayload (e length : Nat) : Instr := .extract (e + 16) (8 * length)

/-- Why a host rejects the bytes it received (R213, steps 1 to 3). -/
inductive ParseReject
  /-- The type that the host expects is 6, which no variant has (R76). -/
  | noVariant
  /-- Fewer than 16 bytes, or than 20 for a variant with the tail. -/
  | tooShort
  /-- The type read is not the type that the host expects. -/
  | wrongType
  /-- VERIFY gave 0. -/
  | checksumMismatch
  deriving DecidableEq, Repr

/-- The commands of a parse, by the steps of R213, in the order in which the host issues them. -/
structure Parse where
  /-- Step 1: SETLEN and the LDBs. -/
  load : List Instr
  /-- Steps 2 and 3: the type, and VERIFY. -/
  check : List Instr
  /-- Step 4: SETLAYOUT and the fields wanted. -/
  fields : List Instr
  /-- Step 5: the extension block. -/
  extension : List Instr
  deriving DecidableEq, Repr

/-- A parse of the bytes received as a packet of the type that the host expects (R213). The host rejects a buffer
shorter than the variant's fixed header before it issues anything. -/
def parse (expected : BitVec 3) (bytes : List Byte) (names : List FieldName) :
    Except ParseReject Parse :=
  match layoutOfType expected with
  | none => .error .noVariant
  | some l =>
    if bytes.length < l.headerBytes then .error .tooShort
    else .ok
      { load := parseLoad bytes
        check := parseCheck
        fields := parseFields l names
        extension := parseExtension l bytes.length }

/-- What the host makes of the values of steps 2 and 3 (R213): the type compared first, then the checksum. None
means that it goes on to step 4, so no field is read before the checksum has verified. -/
def parseVerdict (expected : BitVec 3) (typeRead verified : Wide) : Option ParseReject :=
  if typeRead ≠ expected.setWidth 128 then some .wrongType
  else if verified = 0 then some .checksumMismatch
  else none

/-- All the commands of a parse that is not rejected, in order. -/
def Parse.commands (p : Parse) : List Instr := p.load ++ p.check ++ p.fields ++ p.extension

/-- The payload length of the extension entry that starts at bit `e` (R78). -/
def extEntryLength (B : List Byte) (e : Nat) : Nat := Bytes.extract B e 10

/-- The id of the extension entry that starts at bit `e` (R78). -/
def extEntryId (B : List Byte) (e : Nat) : Nat := Bytes.extract B (e + 10) 6

/-- The first bit of the payload of the extension entry that starts at bit `e` (R78). -/
def extEntryPayload (e : Nat) : Nat := e + 16

end Sys2Proof.Machine
end

