-- ==== Sys2Proof/Safety.lean ====
section
/-! DEFINITION. What holds of the state in every run (spec/10_state.md R34), and the words in which statements
speak of a command's end: the states after an error, after a success with a value and after one without
(spec/30_encoding.md R62), which commands produce a value (R61), and which error a command meets
(spec/60_exceptions.md R182 to R184, R187). All of it is written from the rules and calls none of the machine's
checks. The block can never stop (R190), so a safe run is one whose states all meet `State.Inv`. -/

namespace Sys2Proof.Machine

/-- The invariants of R34, with the model's own: the cells are canonical, and none stands at `LEN` or above.
The third and the fifth of R34 (`LAYOUT` is 0 or 1, `RES < 2^128`) and the range of `ERR` hold by type. -/
structure State.Inv (s : State) : Prop where
  /-- The cells of `BUF` are in canonical form. -/
  canonical : s.mem.wf = true
  /-- `BUF` has exactly `LEN` bytes: no cell stands beyond them. -/
  inBuffer : ∀ c ∈ s.mem, c.1 < s.len
  /-- `LEN <= BUF_MAX`. -/
  capacity : s.len ≤ s.bufMax
  /-- `BUF_MAX` is a value that 00_scope.md R5 admits. -/
  capacityLow : Config.bufMaxLow ≤ s.bufMax
  /-- `BUF_MAX` is a value that 00_scope.md R5 admits. -/
  capacityHigh : s.bufMax ≤ Config.bufMaxHigh
  /-- If `ERR` is not 0 then `SERR` is 1. -/
  sticky : s.err ≠ .ok → s.serr = true

/-- The state after a command that ended in an error: `STATUS` has the code and the sticky flag, the response
is `(code, 0)`, and everything else is as before (R62, R185). -/
def State.failedWith (s : State) (e : Err) : State :=
  { s with err := e, serr := true, responses := s.responses ++ [⟨e, 0⟩] }

/-- The state after a successful command that produced `v` and stored nothing (R62). -/
def State.produced (s : State) (v : Wide) : State :=
  { s with res := v, err := .ok, responses := s.responses ++ [⟨.ok, v⟩] }

/-- The state after a successful command that produced no value and changed nothing else (R62). -/
def State.completed (s : State) : State :=
  { s with err := .ok, responses := s.responses ++ [⟨.ok, 0⟩] }

/-- The commands that produce a value (R61, column "produces a value"). -/
def producesValue : Instr → Bool
  | .rdb _ | .rdcsr _ | .extract _ _ | .frd _ | .rd128 | .calc12 | .embed _ _ | .verify _ _ => true
  | .setlen _ | .ldb _ _ | .setlayout _ | .clrerr | .set _ _ _ | .fwr _ _ | .wr128 _ => false

/-- The bit after the last bit of each field, by field id (30_encoding.md R71, R72). -/
def fieldEnd : List Nat :=
  [4, 16, 19, 20, 21, 22, 23, 24, 25, 26, 27, 30, 32, 96, 116, 128, 144, 152, 160]

/-- The error of the four commands with a bit range: width, then range (R182, R183, R187). -/
def bitRangeErr (s : State) (a w : Nat) : Err :=
  if w = 0 ∨ w > 64 then .width else if a + w > 8 * s.len then .range else .ok

/-- The error of the two commands with a field name: name, then range (R183, R184, R187). -/
def fieldErr (s : State) (id : Nat) : Err :=
  if id > 18 ∨ (id > 15 ∧ s.layout = .h16) then .name
  else if fieldEnd.getD id 0 > 8 * s.len then .range else .ok

/-- The error a command of the table meets, `ok` where it meets none (R182 to R184, R187). -/
def expectedErr (s : State) : Instr → Err
  | .setlen n => if n > s.bufMax then .range else .ok
  | .ldb a _ | .rdb a => if a ≥ s.len then .range else .ok
  | .setlayout l => if l > 1 then .name else .ok
  | .clrerr | .calc12 => .ok
  | .rdcsr c => if c > 3 then .name else .ok
  | .extract a w | .set a w _ | .embed a w | .verify a w => bitRangeErr s a w
  | .frd id | .fwr id _ => fieldErr s id
  | .rd128 | .wr128 _ => if s.len < 16 then .range else .ok

end Sys2Proof.Machine
end

