-- ==== Sys2Proof/Certificates/Slice0/Obligations.lean ====
section
/-! DEFINITION. The statements about the WIP frame packer. Each docstring names the rules of spec/ that the
statement formalises. No hypothesis rests on a value the model chose, but for the one statement that says so. -/

open Sys2Proof Sys2Proof.Machine

/-! ## Encoding -/

/-- Words written out byte by byte from spec/95_test_vectors.md and R60, R61, R66 decode to the commands they
stand for, ignored fields filled with junk among them. -/
def Obligations.WrittenWordsDecode : Prop :=
  decodeBytes [0x11, 0x0C, 0x04, 0, 0, 0, 0xDE, 0xBC, 0x0A, 0, 0, 0, 0, 0, 0, 0, 0, 0, 0, 0, 0, 0] =
      .ok (.set 4 12 0xABCDE, []) ∧
  decodeBytes [0x21, 0x0C, 0x74, 0, 0, 0, 0, 0, 0, 0, 0, 0, 0, 0, 0, 0, 0, 0, 0, 0, 0, 0] =
      .ok (.embed 116 12, []) ∧
  decodeBytes [0x13, 0x77, 0x02, 0, 0, 0, 0x0F, 0, 0, 0, 0, 0, 0, 0, 0x05, 0, 0, 0, 0, 0, 0, 0] =
      .ok (.fwr 2 0xF, []) ∧
  decodeBytes [0x02, 0, 0, 0, 0, 0, 0xFF, 0x01, 0, 0, 0, 0, 0, 0, 0, 0, 0, 0, 0, 0, 0, 0] =
      .ok (.ldb 0 0xFF, []) ∧
  decodeBytes [0x01, 0x09, 0x09, 0, 0, 0, 0x09, 0, 0, 0, 0, 0, 0, 0, 0, 0, 0, 0, 0, 0, 0, 0, 0xAA] =
      .ok (.setlen 9, [0xAA]) ∧
  decodeBytes [0x7F, 0x03, 0x09, 0, 0, 0, 0x05, 0, 0, 0, 0, 0, 0, 0, 0, 0, 0, 0, 0, 0, 0, 0] =
      .error (.reservedOpcode 0x7F)

/-- The word of every well-formed command, as a number made of the fields of R60 with the opcodes of R61: the
operands as they stand, every ignored field 0 (R66), in 22 bytes with the least significant first. -/
def Obligations.AssembledWordsFollowTheTable : Prop :=
  ∀ i : Instr, WellFormed i →
    ((encode i).toNat = match i with
      | .setlen n => 0x01 + n * 2 ^ 16
      | .ldb a b => 0x02 + a * 2 ^ 16 + b.toNat * 2 ^ 48
      | .rdb a => 0x03 + a * 2 ^ 16
      | .setlayout l => 0x04 + l * 2 ^ 16
      | .clrerr => 0x05
      | .rdcsr c => 0x06 + c * 2 ^ 16
      | .extract a w => 0x10 + w * 2 ^ 8 + a * 2 ^ 16
      | .set a w v => 0x11 + w * 2 ^ 8 + a * 2 ^ 16 + v.toNat * 2 ^ 48
      | .frd f => 0x12 + f * 2 ^ 16
      | .fwr f v => 0x13 + f * 2 ^ 16 + v.toNat * 2 ^ 48
      | .rd128 => 0x14
      | .wr128 v => 0x15 + v.toNat * 2 ^ 48
      | .calc12 => 0x20
      | .embed a w => 0x21 + w * 2 ^ 8 + a * 2 ^ 16
      | .verify a w => 0x22 + w * 2 ^ 8 + a * 2 ^ 16) ∧
    (encodeBytes i).length = 22 ∧
    ∀ k, k < 22 → (encodeBytes i)[k]? = some ((encode i).extractLsb' (8 * k) 8)

/-- Decode and encode agree on every well-formed command, as a word and as 22 bytes with more after them
(R60, R61). -/
def Obligations.EncodedCommandDecodes : Prop :=
  ∀ i : Instr, WellFormed i →
    decode (encode i) = .ok i ∧ ∀ rest : List Byte, decodeBytes (encodeBytes i ++ rest) = .ok (i, rest)

/-- A word that decodes gives a command that an assembled word can spell, with the word's own opcode (R60,
R62). -/
def Obligations.DecodedCommandIsWellFormed : Prop :=
  ∀ (c : CmdWord) (i : Instr), decode c = .ok i → WellFormed i ∧ opField (encode i) = opField c

/-- The fields a command does not read have no effect on what a word decodes to: two words with the same opcode
and the same value in each field that R61 says the command reads decode alike (R62). -/
def Obligations.UnreadFieldsAreIgnored : Prop :=
  ∀ (c c' : CmdWord) (i : Instr), decode c = .ok i → opField c' = opField c →
    (match i with
      | .clrerr | .rd128 | .calc12 => True
      | .setlen _ | .rdb _ | .setlayout _ | .rdcsr _ | .frd _ => aField c' = aField c
      | .extract _ _ | .embed _ _ | .verify _ _ => aField c' = aField c ∧ wField c' = wField c
      | .ldb _ _ => aField c' = aField c ∧
          (dField c').extractLsb' 0 8 = (dField c).extractLsb' 0 8
      | .fwr _ _ => aField c' = aField c ∧
          (dField c').extractLsb' 0 64 = (dField c).extractLsb' 0 64
      | .set _ _ _ => aField c' = aField c ∧ wField c' = wField c ∧
          (dField c').extractLsb' 0 64 = (dField c).extractLsb' 0 64
      | .wr128 _ => dField c' = dField c) →
    decode c' = .ok i

/-- R64 and R181: the decoder is total; an opcode that R61 does not list ends the step with ERR_OP and
changes nothing but `STATUS`, whatever the other fields hold (the command is taken from the host and answered),
and every opcode that R61 lists spells a command. -/
def Obligations.ReservedOpcodeEndsInErrOp : Prop :=
  ∀ (s : State) (c : CmdWord) (rest : List Input), s.pending = .command c :: rest →
    (c.toNat % 256 ∉ [0x01, 0x02, 0x03, 0x04, 0x05, 0x06, 0x10, 0x11, 0x12, 0x13, 0x14, 0x15, 0x20,
        0x21, 0x22] →
      step s = .next { s with pending := rest, err := .op, serr := true,
                              responses := s.responses ++ [⟨.op, 0⟩] }) ∧
    (c.toNat % 256 ∈ [0x01, 0x02, 0x03, 0x04, 0x05, 0x06, 0x10, 0x11, 0x12, 0x13, 0x14, 0x15, 0x20,
        0x21, 0x22] →
      ∃ i, decode c = .ok i)

/-! ## The step -/

/-- A step runs the decoded command: the host's oldest command word is taken, and the step is `exec` of what it
decodes to (R6, R62; the list of inputs is the model's, log entry 1). -/
def Obligations.StepRunsTheDecodedCommand : Prop :=
  ∀ (s : State) (c : CmdWord) (rest : List Input) (i : Instr),
    s.pending = .command c :: rest → decode c = .ok i →
    step s = exec i { s with pending := rest }

/-- R33 and R210: the state after reset, in `State.reset` and after the reset event between two commands, from
any state. The parameter `BUF_MAX` stays. That the inputs behind the reset event stay waiting is the model's choice
(log entry 3). -/
def Obligations.ResetEmptiesBufferAndClearsRegisters : Prop :=
  (State.reset.len = 0 ∧ State.reset.buf = [] ∧ State.reset.layout = .h16 ∧ State.reset.res = 0 ∧
    State.reset.err = .ok ∧ State.reset.serr = false ∧ State.reset.vok = false) ∧
  ∀ (s : State) (rest : List Input), s.pending = .reset :: rest →
    ∃ t, step s = .next t ∧ t.len = 0 ∧ t.buf = [] ∧ t.layout = .h16 ∧ t.res = 0 ∧
      t.err = .ok ∧ t.serr = false ∧ t.vok = false ∧ t.statusValue = 0 ∧ t.bufMax = s.bufMax ∧
      t.pending = rest

/-- R34: the invariants hold after reset. That the capacity of `State.reset` is one that R5 admits rests on the
model's choice of log entry 4. -/
def Obligations.ResetStateMeetsInvariant : Prop := State.reset.Inv

/-- R34: every step, from every state that meets the invariants, keeps them. -/
def Obligations.EveryStepKeepsInvariant : Prop :=
  ∀ s t : State, s.Inv → step s = .next t → t.Inv

/-- R63 and R190: every command on every state ends in one step with one response. Its code is the `STATUS.ERR`
it leaves. If the command succeeded and produces a value, that value is in `RES` and in the response, and
otherwise the response's value is 0 and `RES` is as it was. -/
def Obligations.EveryCommandGivesOneResponse : Prop :=
  ∀ (s : State) (c : CmdWord) (rest : List Input), s.pending = .command c :: rest →
    ∃ t v, step s = .next t ∧ t.pending = rest ∧ t.responses = s.responses ++ [⟨t.err, v⟩] ∧
      ((t.err = .ok ∧ ∃ i, decode c = .ok i ∧ producesValue i = true) → t.res = v) ∧
      (¬ (t.err = .ok ∧ ∃ i, decode c = .ok i ∧ producesValue i = true) →
        v = 0 ∧ t.res = s.res)

/-- R185: a command that ends in an error leaves `BUF`, `LEN`, `LAYOUT`, `RES` and `VOK` exactly as they were:
its end state is the state before it with the error recorded, whatever the command was. -/
def Obligations.ErrorHasNoEffectOnData : Prop :=
  ∀ (s t : State) (c : CmdWord) (rest : List Input), s.pending = .command c :: rest →
    step s = .next t → t.err ≠ .ok →
    t = State.failedWith { s with pending := rest } t.err ∧ (∀ a, t.readByte a = s.readByte a) ∧
      t.len = s.len ∧ t.layout = s.layout ∧ t.res = s.res ∧ t.vok = s.vok

/-- R186: at the end of every command `ERR` is that command's code; a failing command sets `SERR`; a
successful one leaves it, except CLRERR, which sets it to 0. -/
def Obligations.StatusIsLatchedByEveryCommand : Prop :=
  ∀ (s t : State) (c : CmdWord) (rest : List Input), s.pending = .command c :: rest →
    step s = .next t →
    (∃ v, t.responses = s.responses ++ [⟨t.err, v⟩]) ∧
    (t.err ≠ .ok → t.serr = true) ∧
    (t.err = .ok → decode c ≠ .ok .clrerr → t.serr = s.serr) ∧
    (decode c = .ok .clrerr → t.err = .ok ∧ t.serr = false)

/-- R181 to R184 and R187: the code of every command on every state is the first that applies in the order
opcode, width or name, range; `ok` if none applies. -/
def Obligations.EveryCommandReportsTheFirstError : Prop :=
  ∀ (s : State) (c : CmdWord) (rest : List Input), s.pending = .command c :: rest →
    ∃ t, step s = .next t ∧
      t.err = match decode c with
        | .ok i => expectedErr s i
        | .error _ => .op

/-- 10_state.md section 1, R22, R24, R25: which commands can change which part of the state. -/
def Obligations.StateIsWrittenOnlyByItsCommands : Prop :=
  ∀ (i : Instr) (s t : State), exec i s = .next t →
    (t.vok ≠ s.vok → t.err = .ok ∧ ∃ a w, i = .verify a w) ∧
    (t.layout ≠ s.layout → ∃ l, i = .setlayout l) ∧
    (t.len ≠ s.len → ∃ n, i = .setlen n) ∧
    (t.res ≠ s.res → producesValue i = true) ∧
    (∀ a, t.readByte a ≠ s.readByte a →
      (∃ n, i = .setlen n) ∨ (∃ k b, i = .ldb k b) ∨ (∃ k w v, i = .set k w v) ∨
      (∃ f v, i = .fwr f v) ∨ (∃ v, i = .wr128 v) ∨ (∃ k w, i = .embed k w)) ∧
    (s.serr = true → t.serr = false → i = .clrerr) ∧
    t.bufMax = s.bufMax ∧ t.pending = s.pending

/-- R23: `RES` is never an input. A command run with any other value in `RES` ends in the same state, but for
`RES` itself where the command does not write it. -/
def Obligations.ResIsNeverAnInput : Prop :=
  ∀ (i : Instr) (s : State) (x : Wide), ∃ t, exec i s = .next t ∧
    exec i { s with res := x } =
      .next { t with res := if t.err = .ok ∧ producesValue i = true then t.res else x }

/-- 90_conflicts.md C9 and R6: no command's outcome depends on anything but `BUF`, `LEN`, `LAYOUT`, the
parameter `BUF_MAX` and the command. Two states that agree on these give the same response and agree on them
again. The one exception is `RDCSR STATUS`, which reads the flags. -/
def Obligations.OutcomeDependsOnBufferAndLayoutOnly : Prop :=
  ∀ (i : Instr) (s s' : State), i ≠ .rdcsr 0 → s.len = s'.len →
    (∀ a, s.readByte a = s'.readByte a) → s.layout = s'.layout → s.bufMax = s'.bufMax →
    ∃ t t' r, exec i s = .next t ∧ exec i s' = .next t' ∧
      t.responses = s.responses ++ [r] ∧ t'.responses = s'.responses ++ [r] ∧
      t.err = t'.err ∧ t.len = t'.len ∧ (∀ a, t.readByte a = t'.readByte a) ∧
      t.layout = t'.layout ∧ t.bufMax = t'.bufMax

/-- R221, R190: a run of as many steps as the host has inputs takes them all, and gives one response for each
command among them. That a reset event gives no response, and keeps the responses and the inputs behind it, is the
model's choice (log entry 3). -/
def Obligations.RunAnswersEveryCommandOnce : Prop :=
  ∀ s : State, ∃ t, Host.Core.run Sys2Proof.core s.pending.length s = .next t ∧ t.pending = [] ∧
    t.responses.length = s.responses.length + (s.pending.filter fun x => x != .reset).length

/-! ## Buffer and control commands -/

/-- R160 SETLEN: above the capacity ERR_RANGE; else the length is `n`, the bytes below both lengths are kept,
the new ones are 0, and nothing else changes. -/
def Obligations.SetlenTruncatesOrZeroExtends : Prop :=
  ∀ (s : State) (n : Nat),
    (s.bufMax < n → exec (.setlen n) s = .next (s.failedWith .range)) ∧
    (n ≤ s.bufMax → ∃ t, exec (.setlen n) s = .next t ∧
      t = { s.completed with mem := t.mem, len := n } ∧
      ∀ a, t.readByte a =
        if a < n then (if a < s.len then s.readByte a else some 0) else none)

/-- R161 LDB: at `LEN` or above ERR_RANGE; else one byte is stored, and nothing else changes. -/
def Obligations.LdbStoresOneByte : Prop :=
  ∀ (s : State) (a : Nat) (b : Byte),
    (s.len ≤ a → exec (.ldb a b) s = .next (s.failedWith .range)) ∧
    (a < s.len → ∃ t, exec (.ldb a b) s = .next t ∧ t = { s.completed with mem := t.mem } ∧
      t.readByte a = some b ∧ ∀ k, k ≠ a → t.readByte k = s.readByte k)

/-- R162 RDB: at `LEN` or above ERR_RANGE; else the byte is produced, and nothing else changes. -/
def Obligations.RdbProducesTheByte : Prop :=
  ∀ (s : State) (a : Nat),
    (s.len ≤ a → exec (.rdb a) s = .next (s.failedWith .range)) ∧
    (a < s.len → ∃ b, s.readByte a = some b ∧
      exec (.rdb a) s = .next (s.produced (b.setWidth 128)))

/-- R163 SETLAYOUT: 0 selects H16, 1 selects H20, any other number is ERR_NAME; nothing else changes. -/
def Obligations.SetlayoutSelectsTheTable : Prop :=
  ∀ s : State,
    exec (.setlayout 0) s = .next { s.completed with layout := .h16 } ∧
    exec (.setlayout 1) s = .next { s.completed with layout := .h20 } ∧
    ∀ l, 1 < l → exec (.setlayout l) s = .next (s.failedWith .name)

/-- R164 CLRERR: the sticky flag is cleared, and nothing else but `ERR` changes; it never fails. -/
def Obligations.ClrerrClearsTheStickyFlag : Prop :=
  ∀ s : State, exec .clrerr s = .next { s.completed with serr := false }

/-- R165, with the layout of `STATUS` of R24, the numbers of R25 and the codes of R180: RDCSR produces the
register as it was before the command; a number above 3 is ERR_NAME. -/
def Obligations.RdcsrProducesTheOldValue : Prop :=
  ∀ s : State,
    exec (.rdcsr 0) s = .next (s.produced (BitVec.ofNat 128
      ((match s.err with | .ok => 0 | .op => 1 | .width => 2 | .range => 3 | .name => 4) +
        8 * (if s.serr then 1 else 0) + 16 * (if s.vok then 1 else 0)))) ∧
    exec (.rdcsr 1) s = .next (s.produced (BitVec.ofNat 128 s.len)) ∧
    exec (.rdcsr 2) s = .next (s.produced (match s.layout with | .h16 => 0 | .h20 => 1)) ∧
    exec (.rdcsr 3) s = .next (s.produced (BitVec.ofNat 128 s.bufMax)) ∧
    ∀ c, 3 < c → exec (.rdcsr c) s = .next (s.failedWith .name)

/-- R47, R165: a second read of `STATUS` shows `ERR = 0` and the same `SERR` and `VOK`. -/
def Obligations.SecondStatusReadShowsNoError : Prop :=
  ∀ s : State, ∃ t u, exec (.rdcsr 0) s = .next t ∧ exec (.rdcsr 0) t = .next u ∧
    u.res.getLsbD 0 = false ∧ u.res.getLsbD 1 = false ∧ u.res.getLsbD 2 = false ∧
    u.res.getLsbD 3 = t.res.getLsbD 3 ∧ u.res.getLsbD 4 = t.res.getLsbD 4 ∧
    t.res.getLsbD 3 = s.serr ∧ t.res.getLsbD 4 = s.vok

/-- R67 and R160: `CLRBUF n` gives `n` zero bytes, whatever the buffer held. -/
def Obligations.ClrbufGivesZeroBytes : Prop :=
  ∀ (s : State) (n : Nat), n ≤ s.bufMax →
    expandPseudo (.clrbuf n) = [.setlen 0, .setlen n] ∧
    ∃ t u, exec (.setlen 0) s = .next t ∧ exec (.setlen n) t = .next u ∧ u.len = n ∧
      u.buf = List.replicate n 0

/-! ## Bit Frame commands -/

/-- R102 EXTRACT: bit `i` of the value produced is bit `a + i` of the buffer, for `i < w`, and 0 above. Width
errors come before range errors. Nothing else changes. -/
def Obligations.ExtractProducesTheFieldBits : Prop :=
  ∀ (s : State) (a w : Nat),
    ((w = 0 ∨ 64 < w) → exec (.extract a w) s = .next (s.failedWith .width)) ∧
    (1 ≤ w → w ≤ 64 → 8 * s.len < a + w →
      exec (.extract a w) s = .next (s.failedWith .range)) ∧
    (1 ≤ w → w ≤ 64 → a + w ≤ 8 * s.len → ∃ v, exec (.extract a w) s = .next (s.produced v) ∧
      ∀ i, v.getLsbD i = (decide (i < w) && s.readBit (a + i)))

/-- R103 SET: bit `n` of the buffer becomes bit `n - a` of the value where the field covers it, and keeps its
value elsewhere. Bytes that the field does not touch are unchanged, and so is everything else. -/
def Obligations.SetWritesTheFieldBitsOnly : Prop :=
  ∀ (s : State) (a w : Nat) (v : BitVec 64),
    ((w = 0 ∨ 64 < w) → exec (.set a w v) s = .next (s.failedWith .width)) ∧
    (1 ≤ w → w ≤ 64 → 8 * s.len < a + w →
      exec (.set a w v) s = .next (s.failedWith .range)) ∧
    (1 ≤ w → w ≤ 64 → a + w ≤ 8 * s.len → ∃ t, exec (.set a w v) s = .next t ∧
      t = { s.completed with mem := t.mem } ∧
      (∀ n, t.readBit n = if a ≤ n ∧ n < a + w then v.getLsbD (n - a) else s.readBit n) ∧
      ∀ k, (k < a / 8 ∨ (a + w - 1) / 8 < k) → t.readByte k = s.readByte k)

/-- R104 FRD: the field's place is what the layout gives its id. A name the layout lacks is ERR_NAME, a field
past the end is ERR_RANGE, else the field is produced as by EXTRACT. -/
def Obligations.FrdProducesTheNamedField : Prop :=
  ∀ (s : State) (id : Nat),
    (lookup s.layout id = none → exec (.frd id) s = .next (s.failedWith .name)) ∧
    ∀ start w, lookup s.layout id = some (start, w) →
      (8 * s.len < start + w → exec (.frd id) s = .next (s.failedWith .range)) ∧
      (start + w ≤ 8 * s.len → ∃ v, exec (.frd id) s = .next (s.produced v) ∧
        ∀ i, v.getLsbD i = (decide (i < w) && s.readBit (start + i)))

/-- R105 FWR: the value, truncated to the field, is written at the place that the layout gives the id, and
nothing else changes. -/
def Obligations.FwrWritesTheNamedFieldOnly : Prop :=
  ∀ (s : State) (id : Nat) (v : BitVec 64),
    (lookup s.layout id = none → exec (.fwr id v) s = .next (s.failedWith .name)) ∧
    ∀ start w, lookup s.layout id = some (start, w) →
      (8 * s.len < start + w → exec (.fwr id v) s = .next (s.failedWith .range)) ∧
      (start + w ≤ 8 * s.len → ∃ t, exec (.fwr id v) s = .next t ∧
        t = { s.completed with mem := t.mem } ∧
        (∀ n, t.readBit n =
          if start ≤ n ∧ n < start + w then v.getLsbD (n - start) else s.readBit n) ∧
        ∀ k, (k < start / 8 ∨ (start + w - 1) / 8 < k) → t.readByte k = s.readByte k)

/-- R106 RD128: bit `i` of the value produced is bit `i` of the buffer; with fewer than 16 bytes ERR_RANGE. -/
def Obligations.Rd128ProducesTheHeader : Prop :=
  ∀ s : State,
    (s.len < 16 → exec .rd128 s = .next (s.failedWith .range)) ∧
    (16 ≤ s.len → ∃ v, exec .rd128 s = .next (s.produced v) ∧
      ∀ i, i < 128 → v.getLsbD i = s.readBit i)

/-- R107 WR128: byte `i` of the first 16 becomes bits `8i + 7 .. 8i` of the value, and nothing else changes. -/
def Obligations.Wr128WritesTheHeaderOnly : Prop :=
  ∀ (s : State) (v : Wide),
    (s.len < 16 → exec (.wr128 v) s = .next (s.failedWith .range)) ∧
    (16 ≤ s.len → ∃ t, exec (.wr128 v) s = .next t ∧ t = { s.completed with mem := t.mem } ∧
      (∀ i, i < 16 → t.readByte i = some (v.extractLsb' (8 * i) 8)) ∧
      ∀ k, 16 ≤ k → t.readByte k = s.readByte k)

/-- R74, with the tables of R71 and R72: what the lookup gives for every layout and every id, and that `none`
makes FRD and FWR end with ERR_NAME. -/
def Obligations.LookupFollowsTheTable : Prop :=
  (∀ (s : State) (id : Nat) (v : BitVec 64), lookup s.layout id = none →
    exec (.frd id) s = .next (s.failedWith .name) ∧
    exec (.fwr id v) s = .next (s.failedWith .name)) ∧
  ∀ (l : Layout) (id : Nat), lookup l id =
    if id ≤ 15 then
      [(0, 4), (4, 12), (16, 3), (19, 1), (20, 1), (21, 1), (22, 1), (23, 1), (24, 1), (25, 1),
        (26, 1), (27, 3), (30, 2), (32, 64), (96, 20), (116, 12)][id]?
    else if id ≤ 18 ∧ l = .h20 then [(128, 16), (144, 8), (152, 8)][id - 16]?
    else none

/-- R80, R71, R72: the fields of a layout are disjoint, lie inside its header and cover every bit of it. -/
def Obligations.FieldsTileTheHeader : Prop :=
  ∀ l : Layout,
    (∀ id id' start w start' w', id ≠ id' → lookup l id = some (start, w) →
      lookup l id' = some (start', w') → start + w ≤ start' ∨ start' + w' ≤ start) ∧
    (∀ id start w, lookup l id = some (start, w) → 1 ≤ w ∧ w ≤ 64 ∧ start + w ≤ 8 * l.headerBytes) ∧
    ∀ n, n < 8 * l.headerBytes → ∃ id start w, lookup l id = some (start, w) ∧ start ≤ n ∧ n < start + w

/-- R161, R162: a byte access is a field access of eight bits at eight times the address, errors included. -/
def Obligations.ByteAccessIsFieldAccess : Prop :=
  ∀ (s : State) (a : Nat) (b : Byte),
    exec (.ldb a b) s = exec (.set (8 * a) 8 (b.setWidth 64)) s ∧
    exec (.rdb a) s = exec (.extract (8 * a) 8) s

/-- R104, R105: a named access is a field access at the place of the name, errors included. -/
def Obligations.NamedAccessIsFieldAccess : Prop :=
  ∀ (s : State) (id start w : Nat) (v : BitVec 64), lookup s.layout id = some (start, w) →
    exec (.frd id) s = exec (.extract start w) s ∧ exec (.fwr id v) s = exec (.set start w v) s

/-- R80, R105, R108, R109 on the commands: a named field that is written reads back truncated to its width, and
every other name reads as it did. -/
def Obligations.NamedFieldReadsBack : Prop :=
  ∀ (s : State) (id start w : Nat) (v : BitVec 64), lookup s.layout id = some (start, w) →
    start + w ≤ 8 * s.len →
    ∃ t u, exec (.fwr id v) s = .next t ∧ exec (.frd id) t = .next u ∧ u.err = .ok ∧
      u.res.toNat = v.toNat % 2 ^ w ∧
      ∀ id', id' ≠ id → ∃ x y, exec (.frd id') s = .next x ∧ exec (.frd id') t = .next y ∧
        x.err = y.err ∧ x.res = y.res

/-- R110: RD128 after `WR128 d` returns `d`; writing back what RD128 returned leaves the buffer as it was; and
byte `i` of the buffer is bits `8i + 7 .. 8i` of the integer. -/
def Obligations.WideRoundTrip : Prop :=
  ∀ (s : State) (d : Wide), 16 ≤ s.len →
    (∃ t u, exec (.wr128 d) s = .next t ∧ exec .rd128 t = .next u ∧ u.res = d) ∧
    (∃ t u, exec .rd128 s = .next t ∧ exec (.wr128 t.res) t = .next u ∧
      (∀ a, u.readByte a = s.readByte a) ∧
      ∀ i, i < 16 → s.readByte i = some (t.res.extractLsb' (8 * i) 8))

/-- R47: doing the same SET, FWR, LDB, WR128 or EMBED twice leaves the buffer that doing it once leaves. -/
def Obligations.WritesAreIdempotent : Prop :=
  ∀ (s : State) (i : Instr),
    ((∃ a w v, i = .set a w v) ∨ (∃ f v, i = .fwr f v) ∨ (∃ a b, i = .ldb a b) ∨
      (∃ v, i = .wr128 v) ∨ (∃ a w, i = .embed a w)) →
    ∃ t u, exec i s = .next t ∧ exec i t = .next u ∧ u.len = t.len ∧
      ∀ a, u.readByte a = t.readByte a

/-- R211: with an empty buffer, as after reset, every command that reads or writes buffer bits or bytes fails,
with ERR_RANGE unless a width or a name error comes first, while CALC succeeds and gives 0xFFF. -/
def Obligations.EmptyBufferCommandsFail : Prop :=
  ∀ s : State, s.len = 0 →
    (∀ a b, exec (.ldb a b) s = .next (s.failedWith .range)) ∧
    (∀ a, exec (.rdb a) s = .next (s.failedWith .range)) ∧
    (∀ a w, ∃ e, (e = .range ∨ e = .width) ∧ exec (.extract a w) s = .next (s.failedWith e)) ∧
    (∀ a w v, ∃ e, (e = .range ∨ e = .width) ∧ exec (.set a w v) s = .next (s.failedWith e)) ∧
    (∀ f, ∃ e, (e = .range ∨ e = .name) ∧ exec (.frd f) s = .next (s.failedWith e)) ∧
    (∀ f v, ∃ e, (e = .range ∨ e = .name) ∧ exec (.fwr f v) s = .next (s.failedWith e)) ∧
    exec .rd128 s = .next (s.failedWith .range) ∧
    (∀ v, exec (.wr128 v) s = .next (s.failedWith .range)) ∧
    (∀ a w, ∃ e, (e = .range ∨ e = .width) ∧ exec (.embed a w) s = .next (s.failedWith e)) ∧
    (∀ a w, ∃ e, (e = .range ∨ e = .width) ∧ exec (.verify a w) s = .next (s.failedWith e)) ∧
    exec .calc12 s = .next (s.produced 0xFFF)

/-! ## The functions of the Bit Frame -/

/-- R100: `Extract` is the sum of the bits and the slice of the integer, and is below `2^w`. -/
def Obligations.ExtractIsTheSumOfItsBits : Prop :=
  ∀ (B : List Byte) (s w : Nat), 1 ≤ w → s + w ≤ 8 * B.length →
    Bytes.extract B s w = ∑ i ∈ Finset.range w, Bytes.bit B (s + i) * 2 ^ i ∧
    Bytes.extract B s w = Bytes.toInt B / 2 ^ s % 2 ^ w ∧ Bytes.extract B s w < 2 ^ w

/-- R101: `Insert` replaces the bits of the field and no other, on the bits and on the integer. -/
def Obligations.InsertReplacesTheFieldBits : Prop :=
  ∀ (B : List Byte) (s w v : Nat), 1 ≤ w → s + w ≤ 8 * B.length →
    (Bytes.insert B s w v).length = B.length ∧
    (∀ n, n < 8 * B.length → Bytes.bit (Bytes.insert B s w v) n =
      if s ≤ n ∧ n < s + w then v % 2 ^ w / 2 ^ (n - s) % 2 else Bytes.bit B n) ∧
    Bytes.toInt (Bytes.insert B s w v) + Bytes.extract B s w * 2 ^ s =
      Bytes.toInt B + v % 2 ^ w * 2 ^ s

/-- R108: read after write, idempotence, and writing back what is there. -/
def Obligations.ReadAfterWriteLaws : Prop :=
  ∀ (B : List Byte) (s w v : Nat), 1 ≤ w → s + w ≤ 8 * B.length →
    Bytes.extract (Bytes.insert B s w v) s w = v % 2 ^ w ∧
    Bytes.insert (Bytes.insert B s w v) s w v = Bytes.insert B s w v ∧
    Bytes.insert B s w (Bytes.extract B s w) = B

/-- R109: a write to a field changes nothing that a disjoint field reads, and writes to different named fields
commute. -/
def Obligations.DisjointFieldsDoNotInterfere : Prop :=
  (∀ (B : List Byte) (s w v s' w' : Nat), 1 ≤ w → s + w ≤ 8 * B.length → 1 ≤ w' →
    s' + w' ≤ 8 * B.length → (s' + w' ≤ s ∨ s + w ≤ s') →
    Bytes.extract (Bytes.insert B s w v) s' w' = Bytes.extract B s' w') ∧
  ∀ (B : List Byte) (l : Layout) (id id' s w s' w' v v' : Nat), id ≠ id' →
    lookup l id = some (s, w) → lookup l id' = some (s', w') →
    s + w ≤ 8 * B.length → s' + w' ≤ 8 * B.length →
    Bytes.insert (Bytes.insert B s w v) s' w' v' = Bytes.insert (Bytes.insert B s' w' v') s w v ∧
    Bytes.extract (Bytes.insert B s w v) s' w' = Bytes.extract B s' w'

/-- R43: accesses of different widths to overlapping bits agree; a byte read by RDB is the field of eight bits
at eight times its address, and RD128 reads the slice of bits 0-127. -/
def Obligations.MixedWidthAccessesAgree : Prop :=
  (∀ (B : List Byte) (s w s' w' : Nat), s + w ≤ 8 * B.length → s ≤ s' → s' + w' ≤ s + w →
    Bytes.extract B s' w' = Bytes.extract B s w / 2 ^ (s' - s) % 2 ^ w') ∧
  (∀ (s : State) (a : Nat), a < s.len → ∃ t, exec (.rdb a) s = .next t ∧
    t.res.toNat = Bytes.extract s.buf (8 * a) 8) ∧
  ∀ s : State, 16 ≤ s.len → ∃ t, exec .rd128 s = .next t ∧
    t.res.toNat = Bytes.extract s.buf 0 128

/-! ## The checksum -/

/-- R135 CALC: the checksum of all of the buffer is produced; it never fails, and nothing else changes. -/
def Obligations.CalcProducesTheChecksum : Prop :=
  ∀ s : State, exec .calc12 s = .next (s.produced (BitVec.ofNat 128 (calc12 s.buf)))

/-- R136 EMBED: the checksum `c` of the buffer with the field zeroed is produced whole, and its low `w` bits are
written into the field. No other bit, no byte outside the field and nothing else changes; on an error the
field is not zeroed. -/
def Obligations.EmbedStoresTheChecksum : Prop :=
  ∀ (s : State) (a w : Nat),
    ((w = 0 ∨ 64 < w) → exec (.embed a w) s = .next (s.failedWith .width)) ∧
    (1 ≤ w → w ≤ 64 → 8 * s.len < a + w → exec (.embed a w) s = .next (s.failedWith .range)) ∧
    (1 ≤ w → w ≤ 64 → a + w ≤ 8 * s.len → ∃ t c, exec (.embed a w) s = .next t ∧
      c = calc12 (Bytes.insert s.buf a w 0) ∧
      t = { s.produced (BitVec.ofNat 128 c) with mem := t.mem } ∧
      (∀ n, t.readBit n = if a ≤ n ∧ n < a + w then c.testBit (n - a) else s.readBit n) ∧
      ∀ k, (k < a / 8 ∨ (a + w - 1) / 8 < k) → t.readByte k = s.readByte k)

/-- R137 VERIFY: 1 is produced and `VOK` set if the stored field equals the checksum of the buffer with the
field zeroed, as integers, else 0 and `VOK` cleared. A mismatch is no error. The buffer is unchanged, and an
error keeps `VOK`. -/
def Obligations.VerifyComparesStoredWithRecomputed : Prop :=
  ∀ (s : State) (a w : Nat),
    ((w = 0 ∨ 64 < w) → exec (.verify a w) s = .next (s.failedWith .width)) ∧
    (1 ≤ w → w ≤ 64 → 8 * s.len < a + w → exec (.verify a w) s = .next (s.failedWith .range)) ∧
    (1 ≤ w → w ≤ 64 → a + w ≤ 8 * s.len →
      (Bytes.extract s.buf a w = calc12 (Bytes.insert s.buf a w 0) →
        exec (.verify a w) s = .next { s.produced 1 with vok := true }) ∧
      (Bytes.extract s.buf a w ≠ calc12 (Bytes.insert s.buf a w 0) →
        exec (.verify a w) s = .next { s.produced 0 with vok := false }))

/-- R130: the words are the consecutive 12-bit slices of the bit stream, least significant bit first, the last
one padded with zeros; and what that means for each group of three bytes. -/
def Obligations.WordsAreTwelveBitSlices : Prop :=
  (∀ B : List Byte, (checkWords B).length = (8 * B.length + 11) / 12 ∧
    ∀ k, k < (8 * B.length + 11) / 12 →
      (checkWords B)[k]? = some (∑ i ∈ Finset.range 12, Bytes.bit B (12 * k + i) * 2 ^ i) ∧
      (checkWords B)[k]? = some (Bytes.toInt B / 2 ^ (12 * k) % 4096) ∧
      (12 * k + 12 ≤ 8 * B.length → (checkWords B)[k]? = some (Bytes.extract B (12 * k) 12))) ∧
  (∀ (B : List Byte) (n : Nat), 8 * B.length ≤ n → Bytes.bit B n = 0) ∧
  ∀ (b₀ b₁ b₂ : Byte) (B : List Byte), checkWords (b₀ :: b₁ :: b₂ :: B) =
    (b₀.toNat + 256 * (b₁.toNat % 16)) :: (b₁.toNat / 16 + 16 * b₂.toNat) :: checkWords B

/-- R139 and R140: the checksum lies in 0 to 0xFFF, and is 0xFFF exactly when every byte is 0, at every length,
0 included. -/
def Obligations.ChecksumIsAllOnesIffBufferIsZero : Prop :=
  ∀ B : List Byte, calc12 B ≤ 4095 ∧ (calc12 B = 0xFFF ↔ ∀ b ∈ B, b = 0)

/-- R143: the closed form of the fold and of the checksum, by the residue modulo 4095, and folding at any points
between. -/
def Obligations.ChecksumHasClosedForm : Prop :=
  (∀ B : List Byte, sumWords B % 4095 = Bytes.toInt B % 4095) ∧
  (∀ t, fold12 t = if t = 0 then 0 else (t - 1) % 4095 + 1) ∧
  (∀ B : List Byte, calc12 B =
    if Bytes.toInt B = 0 then 4095 else 4094 - (Bytes.toInt B - 1) % 4095) ∧
  (∀ x y, fold12 (fold12 x + y) = fold12 (x + y)) ∧
  ∀ B : List Byte, calc12 B = 0 ↔ 0 < Bytes.toInt B ∧ 4095 ∣ Bytes.toInt B

/-- R144, for what holds of it: the checksum depends on the integer of the buffer alone, does not see zero bytes
at the end nor the order of the words, and does not see a multiple of 4095 added to a buffer that is not all
zero. -/
def Obligations.ChecksumMissesTheseChanges : Prop :=
  (∀ B C : List Byte, Bytes.toInt B = Bytes.toInt C → calc12 B = calc12 C) ∧
  (∀ (B : List Byte) (n : Nat), calc12 (B ++ List.replicate n 0) = calc12 B) ∧
  (∀ B C : List Byte, (checkWords B).Perm (checkWords C) → calc12 B = calc12 C) ∧
  ∀ (B C : List Byte) (k : Nat), 0 < Bytes.toInt B → Bytes.toInt C = Bytes.toInt B + 4095 * k →
    calc12 C = calc12 B

/-- R144 and R215: appending zero bytes does not change the outcome of VERIFY. -/
def Obligations.TrailingZerosDoNotChangeVerify : Prop :=
  ∀ (s : State) (n a w : Nat), s.len ≤ n → n ≤ s.bufMax → 1 ≤ w → w ≤ 64 → a + w ≤ 8 * s.len →
    ∃ t u v, exec (.setlen n) s = .next t ∧ exec (.verify a w) t = .next u ∧
      exec (.verify a w) s = .next v ∧ u.err = .ok ∧ v.err = .ok ∧ u.vok = v.vok ∧ u.res = v.res

/-- R141: VERIFY after EMBED at the same place gives 1, for every buffer and every width of 12 or more. -/
def Obligations.VerifyAfterEmbedSucceeds : Prop :=
  ∀ (s : State) (a w : Nat), 12 ≤ w → w ≤ 64 → a + w ≤ 8 * s.len →
    ∃ t u, exec (.embed a w) s = .next t ∧ exec (.verify a w) t = .next u ∧
      u.err = .ok ∧ u.vok = true ∧ u.res = 1

/-- R145: at any width EMBED stores the low bits of the checksum, VERIFY right after it gives 1 exactly when the
checksum fits the width, and a VERIFY that gives 1 found a stored value of at most 12 bits. -/
def Obligations.OtherWidthsComposeLiterally : Prop :=
  ∀ (s : State) (a w : Nat), 1 ≤ w → w ≤ 64 → a + w ≤ 8 * s.len →
    (∃ t u c, exec (.embed a w) s = .next t ∧ exec (.verify a w) t = .next u ∧
      c = calc12 (Bytes.insert s.buf a w 0) ∧ t.res.toNat = c ∧
      Bytes.extract t.buf a w = c % 2 ^ w ∧
      (c < 2 ^ w → u.vok = true ∧ u.res = 1) ∧ (2 ^ w ≤ c → u.vok = false ∧ u.res = 0)) ∧
    ∀ v, exec (.verify a w) s = .next v → v.vok = true → Bytes.extract s.buf a w < 4096

/-- R142, the single bit: if VERIFY gives 1, then with any one bit of the buffer flipped, inside the checksum
field or outside it, it gives 0. -/
def Obligations.SingleBitFlipIsDetected : Prop :=
  ∀ (s s' t : State) (a n : Nat), exec (.verify a 12) s = .next t → t.err = .ok → t.vok = true →
    s'.len = s.len → n < 8 * s.len →
    (∀ m, s'.readBit m = (s.readBit m ^^ decide (m = n))) →
    ∃ t', exec (.verify a 12) s' = .next t' ∧ t'.err = .ok ∧ t'.vok = false ∧ t'.res = 0

/-- R142, the single byte: if VERIFY gives 1, then with any one byte replaced by another value, a byte that holds
no bit of the checksum field, it gives 0. -/
def Obligations.SingleByteChangeIsDetected : Prop :=
  ∀ (s s' t : State) (a j : Nat), exec (.verify a 12) s = .next t → t.err = .ok → t.vok = true →
    s'.len = s.len → j < s.len → (8 * j + 8 ≤ a ∨ a + 12 ≤ 8 * j) →
    s'.readByte j ≠ s.readByte j → (∀ k, k ≠ j → s'.readByte k = s.readByte k) →
    ∃ t', exec (.verify a 12) s' = .next t' ∧ t'.err = .ok ∧ t'.vok = false ∧ t'.res = 0
end

