-- ==== Sys2Proof/Laws/Bytes.lean ====
section
/-! SUPPORT. Byte lists and their integers: the two conversions undo each other, and a bit of the integer is a bit
of the bytes (spec/20_memory.md R40, R41). -/

namespace Sys2Proof.Machine.Bytes

/-- `Int(B) < 2^(8 * len(B))`. -/
theorem toInt_lt (B : List Byte) : toInt B < 2 ^ (8 * B.length) := by
  induction B with
  | nil => simp [toInt]
  | cons b bs ih =>
    have hb := b.isLt
    have : 2 ^ (8 * (b :: bs).length) = 256 * 2 ^ (8 * bs.length) := by
      rw [List.length_cons, Nat.mul_succ, Nat.pow_add]; ring
    simp only [toInt]
    omega

@[simp] theorem ofInt_length (n v : Nat) : (ofInt n v).length = n := by
  induction n generalizing v with
  | zero => rfl
  | succ n ih => simp [ofInt, ih]

/-- Byte `k` of a number written out in bytes. -/
theorem getElem?_ofInt {n k : Nat} (v : Nat) (h : k < n) :
    (ofInt n v)[k]? = some (BitVec.ofNat 8 (v / 256 ^ k)) := by
  induction n generalizing v k with
  | zero => omega
  | succ n ih =>
    cases k with
    | zero => simp [ofInt]
    | succ k => simp [ofInt, ih (v / 256) (Nat.lt_of_succ_lt_succ h), Nat.div_div_eq_div_mul, Nat.pow_succ, Nat.mul_comm]

/-- The bytes of an integer have that integer, cut to their length. -/
theorem toInt_ofInt (n v : Nat) : toInt (ofInt n v) = v % 2 ^ (8 * n) := by
  induction n generalizing v with
  | zero => simp [ofInt, toInt, Nat.mod_one]
  | succ n ih =>
    have h : 2 ^ (8 * (n + 1)) = 256 * 2 ^ (8 * n) := by rw [Nat.mul_succ, Nat.pow_add]; ring
    rw [ofInt, toInt, ih, h, Nat.mod_mul]
    simp

/-- An integer that fits is kept by its bytes. -/
theorem toInt_ofInt_of_lt {n v : Nat} (h : v < 2 ^ (8 * n)) : toInt (ofInt n v) = v := by
  rw [toInt_ofInt, Nat.mod_eq_of_lt h]

/-- The bytes of the integer of a byte list are that list. -/
@[simp] theorem ofInt_toInt (B : List Byte) : ofInt B.length (toInt B) = B := by
  induction B with
  | nil => rfl
  | cons b bs ih =>
    have hb := b.isLt
    have h1 : (b.toNat + 256 * toInt bs) / 256 = toInt bs := by omega
    have h2 : BitVec.ofNat 8 (b.toNat + 256 * toInt bs) = b := by
      apply BitVec.eq_of_toNat_eq
      simp only [BitVec.toNat_ofNat]
      omega
    simp only [List.length_cons, toInt, ofInt, h1, h2, ih]

/-- Byte lists of one length with one integer are equal. -/
theorem toInt_injective {B C : List Byte} (hl : B.length = C.length) (h : toInt B = toInt C) :
    B = C := by
  rw [← ofInt_toInt B, ← ofInt_toInt C, hl, h]

/-- A bit of the integer is the bit of the byte that holds it (20_memory.md R41). -/
theorem testBit_toInt (B : List Byte) (n : Nat) :
    (toInt B).testBit n = (B.getD (n / 8) 0).getLsbD (n % 8) := by
  induction B generalizing n with
  | nil => simp [toInt]
  | cons b bs ih =>
    have hb := b.isLt
    rw [toInt, Nat.add_comm, show (256 : Nat) = 2 ^ 8 by rfl, Nat.testBit_two_pow_mul_add _ hb]
    by_cases h : n < 8
    · simp [h, Nat.div_eq_of_lt h, Nat.mod_eq_of_lt h, BitVec.getLsbD]
    · have h1 : n / 8 = (n - 8) / 8 + 1 := by omega
      have h2 : n % 8 = (n - 8) % 8 := by omega
      simp [h, h1, h2, ih]

/-- `Bit(B, n)` is the bit of the integer (20_memory.md R41). -/
theorem bit_eq_testBit (B : List Byte) (n : Nat) : bit B n = ((toInt B).testBit n).toNat := by
  rw [testBit_toInt, bit, BitVec.getLsbD, Nat.testBit_eq_decide_div_mod_eq]
  have := Nat.mod_two_eq_zero_or_one ((B.getD (n / 8) 0).toNat / 2 ^ (n % 8))
  rcases this with h | h <;> rw [h] <;> rfl

@[simp] theorem insert_length (B : List Byte) (s w v : Nat) : (insert B s w v).length = B.length := by
  simp [insert]

/-- A field's value is below `2^w` (40_bitframe.md R100). -/
theorem extract_lt (B : List Byte) (s w : Nat) : extract B s w < 2 ^ w :=
  Nat.mod_lt _ (Nat.two_pow_pos w)

/-- The integer split at a field: what lies below it, the field, what lies above it. -/
theorem toInt_split (B : List Byte) (s w : Nat) :
    toInt B = toInt B % 2 ^ s + 2 ^ s * extract B s w + 2 ^ (s + w) * (toInt B / 2 ^ (s + w)) := by
  have h1 := Nat.mod_add_div (toInt B) (2 ^ s)
  have h2 := Nat.mod_add_div (toInt B / 2 ^ s) (2 ^ w)
  rw [Nat.div_div_eq_div_mul, ← Nat.pow_add] at h2
  have h3 : 2 ^ s * (2 ^ w * (toInt B / 2 ^ (s + w))) = 2 ^ (s + w) * (toInt B / 2 ^ (s + w)) := by
    rw [← Nat.mul_assoc, ← Nat.pow_add]
  calc toInt B = toInt B % 2 ^ s + 2 ^ s * (toInt B / 2 ^ s) := h1.symm
    _ = toInt B % 2 ^ s + 2 ^ s * (extract B s w + 2 ^ w * (toInt B / 2 ^ (s + w))) := by
        rw [extract, trunc, h2]
    _ = _ := by rw [Nat.mul_add, h3]; ring

@[simp] theorem resize_length (B : List Byte) (n : Nat) : (resize B n).length = n := by
  unfold resize
  split
  · simpa using ‹n ≤ B.length›
  · simp only [List.length_append, List.length_replicate]
    omega

/-- Writing inside the list keeps its length. -/
theorem memWrite_length {B : List Byte} {addr n : Nat} (v : Nat) (h : addr + n ≤ B.length) :
    (memWrite B addr n v).length = B.length := by
  simp only [memWrite, List.length_append, List.length_take, ofInt_length, List.length_drop]
  omega

/-- The integer of one list after another. -/
theorem toInt_append (B C : List Byte) : toInt (B ++ C) = toInt B + 2 ^ (8 * B.length) * toInt C := by
  induction B with
  | nil => simp [toInt]
  | cons b bs ih =>
    have h : 2 ^ (8 * (b :: bs).length) = 256 * 2 ^ (8 * bs.length) := by
      rw [List.length_cons, Nat.mul_succ, Nat.pow_add]; ring
    rw [List.cons_append, toInt, toInt, ih, h]; ring

/-- What `insert` makes of the integer: the part below the field and the part above it stay (40_bitframe.md
R101). -/
theorem toInt_insert {B : List Byte} {s w : Nat} (v : Nat) (h : s + w ≤ 8 * B.length) :
    toInt (insert B s w v) =
      toInt B % 2 ^ s + 2 ^ s * (v % 2 ^ w) + 2 ^ (s + w) * (toInt B / 2 ^ (s + w)) := by
  have hs := toInt_split B s w
  have hlow : toInt B % 2 ^ s < 2 ^ s := Nat.mod_lt _ (Nat.two_pow_pos _)
  have hval : v % 2 ^ w < 2 ^ w := Nat.mod_lt _ (Nat.two_pow_pos _)
  have hlen : 2 ^ (8 * B.length) = 2 ^ (s + w) * 2 ^ (8 * B.length - (s + w)) := by
    rw [← Nat.pow_add]; congr 1; omega
  have hhigh : toInt B / 2 ^ (s + w) < 2 ^ (8 * B.length - (s + w)) := by
    rw [Nat.div_lt_iff_lt_mul (Nat.two_pow_pos _), Nat.mul_comm, ← hlen]
    exact toInt_lt B
  have hsum : toInt B - extract B s w * 2 ^ s + trunc w v * 2 ^ s =
      toInt B % 2 ^ s + 2 ^ s * (v % 2 ^ w) + 2 ^ (s + w) * (toInt B / 2 ^ (s + w)) := by
    rw [trunc, Nat.mul_comm (extract B s w), Nat.mul_comm (v % 2 ^ w)]
    omega
  have hfield : toInt B % 2 ^ s + 2 ^ s * (v % 2 ^ w) < 2 ^ (s + w) := by
    have := Nat.mul_le_mul_left (2 ^ s) (Nat.succ_le_of_lt hval)
    rw [Nat.mul_succ] at this
    rw [Nat.pow_add]
    omega
  rw [Bytes.insert, hsum]
  apply toInt_ofInt_of_lt
  have := Nat.mul_le_mul_left (2 ^ (s + w)) (Nat.succ_le_of_lt hhigh)
  rw [Nat.mul_succ] at this
  rw [hlen]
  omega

/-- A bit of the integer after `insert`: the value's bit inside the field, the old bit elsewhere. -/
theorem testBit_insert {B : List Byte} {s w : Nat} (v : Nat) (h : s + w ≤ 8 * B.length) (n : Nat) :
    (toInt (insert B s w v)).testBit n =
      if s ≤ n ∧ n < s + w then v.testBit (n - s) else (toInt B).testBit n := by
  have hlow : toInt B % 2 ^ s < 2 ^ s := Nat.mod_lt _ (Nat.two_pow_pos _)
  have hval : v % 2 ^ w < 2 ^ w := Nat.mod_lt _ (Nat.two_pow_pos _)
  have hform : toInt (insert B s w v) =
      2 ^ s * (2 ^ w * (toInt B / 2 ^ (s + w)) + v % 2 ^ w) + toInt B % 2 ^ s := by
    rw [toInt_insert v h, Nat.pow_add]; ring
  rw [hform, Nat.testBit_two_pow_mul_add _ hlow]
  by_cases hn : n < s
  · simp [hn, show ¬ s ≤ n by omega]
  · rw [if_neg hn, Nat.testBit_two_pow_mul_add _ hval]
    by_cases hw : n < s + w
    · simp [show n - s < w by omega, show s ≤ n by omega, hw]
    · simp only [show ¬ n - s < w by omega, hw, and_false, ↓reduceIte, Nat.testBit_div_two_pow]
      congr 1
      omega

/-- A bit of a field's value is the buffer's bit at the field's start plus its number. -/
theorem testBit_extract (B : List Byte) (s w n : Nat) :
    (extract B s w).testBit n = (decide (n < w) && (toInt B).testBit (s + n)) := by
  rw [extract, trunc, Nat.testBit_mod_two_pow, Nat.testBit_div_two_pow, Nat.add_comm n s]

/-- A byte access inside the list, split into what lies below it, in it and above it. -/
theorem toInt_bytes {B : List Byte} {addr n : Nat} (h : addr + n ≤ B.length) :
    toInt B = toInt (B.take addr) +
      2 ^ (8 * addr) * (memRead B addr n + 2 ^ (8 * n) * toInt (B.drop (addr + n))) := by
  have hB : B = B.take addr ++ ((B.drop addr).take n ++ B.drop (addr + n)) := by
    rw [← List.drop_drop]; simp
  conv_lhs => rw [hB]
  rw [toInt_append, toInt_append]
  simp [memRead, show min addr B.length = addr by omega, show min n (B.length - addr) = n by omega]

/-- The part below a byte access is below its place. -/
theorem toInt_take_lt {B : List Byte} {n : Nat} (h : n ≤ B.length) :
    toInt (B.take n) < 2 ^ (8 * n) := by
  simpa [Nat.min_eq_left h] using toInt_lt (B.take n)

/-- The value of a byte access is below `2^(8n)`. -/
theorem memRead_lt {B : List Byte} {addr n : Nat} (h : addr + n ≤ B.length) :
    memRead B addr n < 2 ^ (8 * n) := by
  simpa [memRead] using toInt_take_lt (B := B.drop addr) (n := n) (by simp; omega)

end Sys2Proof.Machine.Bytes
end

