-- ==== Sys2Proof/Laws/Checksum.lean ====
section
/-! SUPPORT. The bound on the passes of `fold12` is never met, and the length and the elements of the word
list (spec/41_checksum.md R130, R132). -/

namespace Sys2Proof.Machine

/-- A pass on a number of 4096 or more makes it smaller (R132). -/
theorem fold_pass_lt {t : Nat} (h : t / 4096 ≠ 0) : t % 4096 + t / 4096 < t := by omega

/-- Passes beyond the value itself change nothing. -/
theorem foldLoop_enough {p q t : Nat} (hp : t ≤ p) (hq : t ≤ q) : foldLoop p t = foldLoop q t := by
  induction p generalizing q t with
  | zero =>
    obtain rfl : t = 0 := by omega
    cases q <;> simp [foldLoop]
  | succ p ih =>
    cases q with
    | zero =>
      obtain rfl : t = 0 := by omega
      simp [foldLoop]
    | succ q =>
      simp only [foldLoop]
      split
      · rfl
      · have := fold_pass_lt ‹_›
        exact ih (by omega) (by omega)

/-- A value that fits 12 bits is folded already. -/
theorem fold12_of_lt {t : Nat} (h : t < 4096) : fold12 t = t := by
  cases t with
  | zero => rfl
  | succ t => simp [fold12, foldLoop, Nat.div_eq_of_lt h]

/-- A value of 4096 or more is folded once and then again. -/
theorem fold12_pass {t : Nat} (h : 4096 ≤ t) : fold12 t = fold12 (t % 4096 + t / 4096) := by
  obtain ⟨p, rfl⟩ : ∃ p, t = p + 1 := ⟨t - 1, by omega⟩
  have h0 : (p + 1) / 4096 ≠ 0 := by omega
  have hlt := fold_pass_lt h0
  rw [fold12, foldLoop, if_neg h0, fold12]
  exact foldLoop_enough (by omega) le_rfl

@[simp] theorem wordsOfInt_length (n v : Nat) : (wordsOfInt n v).length = n := by
  induction n generalizing v with
  | zero => rfl
  | succ n ih => simp [wordsOfInt, ih]

/-- Word `k` is the 12 bits from bit `12k` on. -/
theorem wordsOfInt_get (n v k : Nat) (h : k < n) :
    (wordsOfInt n v)[k]? = some (v / 2 ^ (12 * k) % 4096) := by
  induction n generalizing v k with
  | zero => omega
  | succ n ih =>
    cases k with
    | zero => simp [wordsOfInt]
    | succ k =>
      have hp : 4096 * 2 ^ (12 * k) = 2 ^ (12 * (k + 1)) := by rw [Nat.mul_succ, Nat.pow_add]; ring
      rw [wordsOfInt, List.getElem?_cons_succ, ih _ _ (by omega), Nat.div_div_eq_div_mul, hp]

@[simp] theorem checkWords_length (B : List Byte) :
    (checkWords B).length = numWords B.length := by
  simp [checkWords]

/-- VERIFY's comparison succeeds exactly when the stored field is the recomputed checksum (R137). -/
theorem verifyBytes_eq_true (B : List Byte) (off w : Nat) :
    verifyBytes B off w = true ↔ Bytes.extract B off w = checksumZeroed B off w := by
  rw [verifyBytes, decide_eq_true_eq]

/-- VERIFY's comparison fails exactly when the stored field is not the recomputed checksum (R137). -/
theorem verifyBytes_eq_false (B : List Byte) (off w : Nat) :
    verifyBytes B off w = false ↔ Bytes.extract B off w ≠ checksumZeroed B off w := by
  rw [verifyBytes, decide_eq_false_iff_not]

end Sys2Proof.Machine
end

