-- ==== Sys2Proof/Laws/Decode.lean ====
section
/-! SUPPORT. The fields of an assembled word, and the numbers of the opcodes (spec/30_encoding.md R60, R61). -/

namespace Sys2Proof

variable (op : Byte) (w : BitVec 8) (a : BitVec 32) (d : Wide)

/-- A bit of an assembled word, by the field it stands in. -/
theorem getLsbD_assemble (i : Nat) : (assemble op w a d).getLsbD i =
    if i < 8 then op.getLsbD i
    else if i < 16 then w.getLsbD (i - 8)
    else if i < 48 then a.getLsbD (i - 16)
    else d.getLsbD (i - 48) := by
  have h : (assemble op w a d).getLsbD i =
      BitVec.getLsbD (w := 128 + 32 + 8 + 8) (d ++ a ++ w ++ op) i := rfl
  rw [h]
  simp only [BitVec.getLsbD_append]
  split_ifs <;> first | rfl | omega

@[simp] theorem opField_assemble : opField (assemble op w a d) = op := by
  ext i hi
  simp [opField, getLsbD_assemble, hi, BitVec.getLsbD_eq_getElem]

@[simp] theorem wField_assemble : wField (assemble op w a d) = w := by
  ext i hi
  simp [wField, getLsbD_assemble, show 8 + i < 16 by omega, BitVec.getLsbD_eq_getElem, hi]

@[simp] theorem aField_assemble : aField (assemble op w a d) = a := by
  ext i hi
  simp [aField, getLsbD_assemble, show ¬ 16 + i < 8 by omega, show 16 + i < 48 by omega,
    BitVec.getLsbD_eq_getElem, hi]

@[simp] theorem dField_assemble : dField (assemble op w a d) = d := by
  ext i hi
  simp [dField, getLsbD_assemble, show ¬ 48 + i < 8 by omega, show ¬ 48 + i < 16 by omega,
    BitVec.getLsbD_eq_getElem, hi]

/-- An assembled word as a number. -/
theorem toNat_assemble : (assemble op w a d).toNat =
    op.toNat + w.toNat * 2 ^ 8 + a.toNat * 2 ^ 16 + d.toNat * 2 ^ 48 := by
  have h : (assemble op w a d).toNat =
      BitVec.toNat (w := 128 + 32 + 8 + 8) (d ++ a ++ w ++ op) := rfl
  rw [h]
  simp only [BitVec.toNat_append]
  rw [← Nat.shiftLeft_add_eq_or_of_lt op.isLt, ← Nat.shiftLeft_add_eq_or_of_lt w.isLt,
    ← Nat.shiftLeft_add_eq_or_of_lt a.isLt]
  simp only [Nat.shiftLeft_eq]
  omega

/-- The opcode with the number of an opcode is that opcode. -/
@[simp] theorem Opcode.ofCode_code (o : Opcode) : Opcode.ofCode o.code = some o := by
  cases o <;> rfl

/-- A number that names an opcode is that opcode's number. -/
theorem Opcode.code_of_ofCode {b : Byte} {o : Opcode} (h : Opcode.ofCode b = some o) :
    o.code = b := by
  simpa using List.find?_some h

end Sys2Proof
end

