-- ==== Sys2Proof/Laws/State.lean ====
section
/-! SUPPORT. What each operation on the state does to each field, so that no later proof unfolds a record
update, and what it does to the views of the buffer, which depend on `mem` and `len` alone. -/

namespace Sys2Proof.Machine

variable (s : State)


@[simp] theorem State.latchOk_mem : (s.latchOk).mem = s.mem := rfl
@[simp] theorem State.latchOk_len : (s.latchOk).len = s.len := rfl
@[simp] theorem State.latchOk_layout : (s.latchOk).layout = s.layout := rfl
@[simp] theorem State.latchOk_res : (s.latchOk).res = s.res := rfl
@[simp] theorem State.latchOk_err : (s.latchOk).err = .ok := rfl
@[simp] theorem State.latchOk_serr : (s.latchOk).serr = s.serr := rfl
@[simp] theorem State.latchOk_vok : (s.latchOk).vok = s.vok := rfl
@[simp] theorem State.latchOk_bufMax : (s.latchOk).bufMax = s.bufMax := rfl
@[simp] theorem State.latchOk_pending : (s.latchOk).pending = s.pending := rfl
@[simp] theorem State.latchOk_responses : (s.latchOk).responses = s.responses := rfl
@[simp] theorem State.latchOk_buf : (s.latchOk).buf = s.buf := rfl
@[simp] theorem State.latchOk_readByte (x : Nat) : (s.latchOk).readByte x = s.readByte x := rfl
@[simp] theorem State.latchOk_readBit (x : Nat) : (s.latchOk).readBit x = s.readBit x := rfl

@[simp] theorem State.latchErr_mem (e : Err) : (s.latchErr e).mem = s.mem := rfl
@[simp] theorem State.latchErr_len (e : Err) : (s.latchErr e).len = s.len := rfl
@[simp] theorem State.latchErr_layout (e : Err) : (s.latchErr e).layout = s.layout := rfl
@[simp] theorem State.latchErr_res (e : Err) : (s.latchErr e).res = s.res := rfl
@[simp] theorem State.latchErr_err (e : Err) : (s.latchErr e).err = e := rfl
@[simp] theorem State.latchErr_serr (e : Err) : (s.latchErr e).serr = true := rfl
@[simp] theorem State.latchErr_vok (e : Err) : (s.latchErr e).vok = s.vok := rfl
@[simp] theorem State.latchErr_bufMax (e : Err) : (s.latchErr e).bufMax = s.bufMax := rfl
@[simp] theorem State.latchErr_pending (e : Err) : (s.latchErr e).pending = s.pending := rfl
@[simp] theorem State.latchErr_responses (e : Err) : (s.latchErr e).responses = s.responses := rfl
@[simp] theorem State.latchErr_buf (e : Err) : (s.latchErr e).buf = s.buf := rfl
@[simp] theorem State.latchErr_readByte (e : Err) (x : Nat) : (s.latchErr e).readByte x = s.readByte x := rfl
@[simp] theorem State.latchErr_readBit (e : Err) (x : Nat) : (s.latchErr e).readBit x = s.readBit x := rfl

@[simp] theorem State.clearSerr_mem : (s.clearSerr).mem = s.mem := rfl
@[simp] theorem State.clearSerr_len : (s.clearSerr).len = s.len := rfl
@[simp] theorem State.clearSerr_layout : (s.clearSerr).layout = s.layout := rfl
@[simp] theorem State.clearSerr_res : (s.clearSerr).res = s.res := rfl
@[simp] theorem State.clearSerr_err : (s.clearSerr).err = s.err := rfl
@[simp] theorem State.clearSerr_serr : (s.clearSerr).serr = false := rfl
@[simp] theorem State.clearSerr_vok : (s.clearSerr).vok = s.vok := rfl
@[simp] theorem State.clearSerr_bufMax : (s.clearSerr).bufMax = s.bufMax := rfl
@[simp] theorem State.clearSerr_pending : (s.clearSerr).pending = s.pending := rfl
@[simp] theorem State.clearSerr_responses : (s.clearSerr).responses = s.responses := rfl
@[simp] theorem State.clearSerr_buf : (s.clearSerr).buf = s.buf := rfl
@[simp] theorem State.clearSerr_readByte (x : Nat) : (s.clearSerr).readByte x = s.readByte x := rfl
@[simp] theorem State.clearSerr_readBit (x : Nat) : (s.clearSerr).readBit x = s.readBit x := rfl

@[simp] theorem State.setVok_mem (v : Bool) : (s.setVok v).mem = s.mem := rfl
@[simp] theorem State.setVok_len (v : Bool) : (s.setVok v).len = s.len := rfl
@[simp] theorem State.setVok_layout (v : Bool) : (s.setVok v).layout = s.layout := rfl
@[simp] theorem State.setVok_res (v : Bool) : (s.setVok v).res = s.res := rfl
@[simp] theorem State.setVok_err (v : Bool) : (s.setVok v).err = s.err := rfl
@[simp] theorem State.setVok_serr (v : Bool) : (s.setVok v).serr = s.serr := rfl
@[simp] theorem State.setVok_vok (v : Bool) : (s.setVok v).vok = v := rfl
@[simp] theorem State.setVok_bufMax (v : Bool) : (s.setVok v).bufMax = s.bufMax := rfl
@[simp] theorem State.setVok_pending (v : Bool) : (s.setVok v).pending = s.pending := rfl
@[simp] theorem State.setVok_responses (v : Bool) : (s.setVok v).responses = s.responses := rfl
@[simp] theorem State.setVok_buf (v : Bool) : (s.setVok v).buf = s.buf := rfl
@[simp] theorem State.setVok_readByte (v : Bool) (x : Nat) : (s.setVok v).readByte x = s.readByte x := rfl
@[simp] theorem State.setVok_readBit (v : Bool) (x : Nat) : (s.setVok v).readBit x = s.readBit x := rfl

@[simp] theorem State.setBuf_mem (B : List Byte) : (s.setBuf B).mem = Memory.ofBytes B := rfl
@[simp] theorem State.setBuf_len (B : List Byte) : (s.setBuf B).len = B.length := rfl
@[simp] theorem State.setBuf_layout (B : List Byte) : (s.setBuf B).layout = s.layout := rfl
@[simp] theorem State.setBuf_res (B : List Byte) : (s.setBuf B).res = s.res := rfl
@[simp] theorem State.setBuf_err (B : List Byte) : (s.setBuf B).err = s.err := rfl
@[simp] theorem State.setBuf_serr (B : List Byte) : (s.setBuf B).serr = s.serr := rfl
@[simp] theorem State.setBuf_vok (B : List Byte) : (s.setBuf B).vok = s.vok := rfl
@[simp] theorem State.setBuf_bufMax (B : List Byte) : (s.setBuf B).bufMax = s.bufMax := rfl
@[simp] theorem State.setBuf_pending (B : List Byte) : (s.setBuf B).pending = s.pending := rfl
@[simp] theorem State.setBuf_responses (B : List Byte) : (s.setBuf B).responses = s.responses := rfl

@[simp] theorem State.setLayout_mem (l : Layout) : (s.setLayout l).mem = s.mem := rfl
@[simp] theorem State.setLayout_len (l : Layout) : (s.setLayout l).len = s.len := rfl
@[simp] theorem State.setLayout_layout (l : Layout) : (s.setLayout l).layout = l := rfl
@[simp] theorem State.setLayout_res (l : Layout) : (s.setLayout l).res = s.res := rfl
@[simp] theorem State.setLayout_err (l : Layout) : (s.setLayout l).err = s.err := rfl
@[simp] theorem State.setLayout_serr (l : Layout) : (s.setLayout l).serr = s.serr := rfl
@[simp] theorem State.setLayout_vok (l : Layout) : (s.setLayout l).vok = s.vok := rfl
@[simp] theorem State.setLayout_bufMax (l : Layout) : (s.setLayout l).bufMax = s.bufMax := rfl
@[simp] theorem State.setLayout_pending (l : Layout) : (s.setLayout l).pending = s.pending := rfl
@[simp] theorem State.setLayout_responses (l : Layout) : (s.setLayout l).responses = s.responses := rfl
@[simp] theorem State.setLayout_buf (l : Layout) : (s.setLayout l).buf = s.buf := rfl
@[simp] theorem State.setLayout_readByte (l : Layout) (x : Nat) : (s.setLayout l).readByte x = s.readByte x := rfl
@[simp] theorem State.setLayout_readBit (l : Layout) (x : Nat) : (s.setLayout l).readBit x = s.readBit x := rfl

@[simp] theorem State.setRes_mem (v : Wide) : (s.setRes v).mem = s.mem := rfl
@[simp] theorem State.setRes_len (v : Wide) : (s.setRes v).len = s.len := rfl
@[simp] theorem State.setRes_layout (v : Wide) : (s.setRes v).layout = s.layout := rfl
@[simp] theorem State.setRes_res (v : Wide) : (s.setRes v).res = v := rfl
@[simp] theorem State.setRes_err (v : Wide) : (s.setRes v).err = s.err := rfl
@[simp] theorem State.setRes_serr (v : Wide) : (s.setRes v).serr = s.serr := rfl
@[simp] theorem State.setRes_vok (v : Wide) : (s.setRes v).vok = s.vok := rfl
@[simp] theorem State.setRes_bufMax (v : Wide) : (s.setRes v).bufMax = s.bufMax := rfl
@[simp] theorem State.setRes_pending (v : Wide) : (s.setRes v).pending = s.pending := rfl
@[simp] theorem State.setRes_responses (v : Wide) : (s.setRes v).responses = s.responses := rfl
@[simp] theorem State.setRes_buf (v : Wide) : (s.setRes v).buf = s.buf := rfl
@[simp] theorem State.setRes_readByte (v : Wide) (x : Nat) : (s.setRes v).readByte x = s.readByte x := rfl
@[simp] theorem State.setRes_readBit (v : Wide) (x : Nat) : (s.setRes v).readBit x = s.readBit x := rfl

@[simp] theorem State.respond_mem (e : Err) (v : Wide) : (s.respond e v).mem = s.mem := rfl
@[simp] theorem State.respond_len (e : Err) (v : Wide) : (s.respond e v).len = s.len := rfl
@[simp] theorem State.respond_layout (e : Err) (v : Wide) : (s.respond e v).layout = s.layout := rfl
@[simp] theorem State.respond_res (e : Err) (v : Wide) : (s.respond e v).res = s.res := rfl
@[simp] theorem State.respond_err (e : Err) (v : Wide) : (s.respond e v).err = s.err := rfl
@[simp] theorem State.respond_serr (e : Err) (v : Wide) : (s.respond e v).serr = s.serr := rfl
@[simp] theorem State.respond_vok (e : Err) (v : Wide) : (s.respond e v).vok = s.vok := rfl
@[simp] theorem State.respond_bufMax (e : Err) (v : Wide) : (s.respond e v).bufMax = s.bufMax := rfl
@[simp] theorem State.respond_pending (e : Err) (v : Wide) : (s.respond e v).pending = s.pending := rfl
@[simp] theorem State.respond_responses (e : Err) (v : Wide) : (s.respond e v).responses = s.responses ++ [⟨e, v⟩] := rfl
@[simp] theorem State.respond_buf (e : Err) (v : Wide) : (s.respond e v).buf = s.buf := rfl
@[simp] theorem State.respond_readByte (e : Err) (v : Wide) (x : Nat) : (s.respond e v).readByte x = s.readByte x := rfl
@[simp] theorem State.respond_readBit (e : Err) (v : Wide) (x : Nat) : (s.respond e v).readBit x = s.readBit x := rfl

@[simp] theorem State.raiseErr_mem (e : Err) : (s.raiseErr e).mem = s.mem := rfl
@[simp] theorem State.raiseErr_len (e : Err) : (s.raiseErr e).len = s.len := rfl
@[simp] theorem State.raiseErr_layout (e : Err) : (s.raiseErr e).layout = s.layout := rfl
@[simp] theorem State.raiseErr_res (e : Err) : (s.raiseErr e).res = s.res := rfl
@[simp] theorem State.raiseErr_err (e : Err) : (s.raiseErr e).err = e := rfl
@[simp] theorem State.raiseErr_serr (e : Err) : (s.raiseErr e).serr = true := rfl
@[simp] theorem State.raiseErr_vok (e : Err) : (s.raiseErr e).vok = s.vok := rfl
@[simp] theorem State.raiseErr_bufMax (e : Err) : (s.raiseErr e).bufMax = s.bufMax := rfl
@[simp] theorem State.raiseErr_pending (e : Err) : (s.raiseErr e).pending = s.pending := rfl
@[simp] theorem State.raiseErr_responses (e : Err) : (s.raiseErr e).responses = s.responses ++ [⟨e, 0⟩] := rfl
@[simp] theorem State.raiseErr_buf (e : Err) : (s.raiseErr e).buf = s.buf := rfl
@[simp] theorem State.raiseErr_readByte (e : Err) (x : Nat) : (s.raiseErr e).readByte x = s.readByte x := rfl
@[simp] theorem State.raiseErr_readBit (e : Err) (x : Nat) : (s.raiseErr e).readBit x = s.readBit x := rfl

@[simp] theorem State.finish_mem : (s.finish).mem = s.mem := rfl
@[simp] theorem State.finish_len : (s.finish).len = s.len := rfl
@[simp] theorem State.finish_layout : (s.finish).layout = s.layout := rfl
@[simp] theorem State.finish_res : (s.finish).res = s.res := rfl
@[simp] theorem State.finish_err : (s.finish).err = .ok := rfl
@[simp] theorem State.finish_serr : (s.finish).serr = s.serr := rfl
@[simp] theorem State.finish_vok : (s.finish).vok = s.vok := rfl
@[simp] theorem State.finish_bufMax : (s.finish).bufMax = s.bufMax := rfl
@[simp] theorem State.finish_pending : (s.finish).pending = s.pending := rfl
@[simp] theorem State.finish_responses : (s.finish).responses = s.responses ++ [⟨.ok, 0⟩] := rfl
@[simp] theorem State.finish_buf : (s.finish).buf = s.buf := rfl
@[simp] theorem State.finish_readByte (x : Nat) : (s.finish).readByte x = s.readByte x := rfl
@[simp] theorem State.finish_readBit (x : Nat) : (s.finish).readBit x = s.readBit x := rfl

@[simp] theorem State.finishWith_mem (v : Wide) : (s.finishWith v).mem = s.mem := rfl
@[simp] theorem State.finishWith_len (v : Wide) : (s.finishWith v).len = s.len := rfl
@[simp] theorem State.finishWith_layout (v : Wide) : (s.finishWith v).layout = s.layout := rfl
@[simp] theorem State.finishWith_res (v : Wide) : (s.finishWith v).res = v := rfl
@[simp] theorem State.finishWith_err (v : Wide) : (s.finishWith v).err = .ok := rfl
@[simp] theorem State.finishWith_serr (v : Wide) : (s.finishWith v).serr = s.serr := rfl
@[simp] theorem State.finishWith_vok (v : Wide) : (s.finishWith v).vok = s.vok := rfl
@[simp] theorem State.finishWith_bufMax (v : Wide) : (s.finishWith v).bufMax = s.bufMax := rfl
@[simp] theorem State.finishWith_pending (v : Wide) : (s.finishWith v).pending = s.pending := rfl
@[simp] theorem State.finishWith_responses (v : Wide) : (s.finishWith v).responses = s.responses ++ [⟨.ok, v⟩] := rfl
@[simp] theorem State.finishWith_buf (v : Wide) : (s.finishWith v).buf = s.buf := rfl
@[simp] theorem State.finishWith_readByte (v : Wide) (x : Nat) : (s.finishWith v).readByte x = s.readByte x := rfl
@[simp] theorem State.finishWith_readBit (v : Wide) (x : Nat) : (s.finishWith v).readBit x = s.readBit x := rfl

@[simp] theorem State.resetEvent_mem : (s.resetEvent).mem = [] := rfl
@[simp] theorem State.resetEvent_len : (s.resetEvent).len = 0 := rfl
@[simp] theorem State.resetEvent_layout : (s.resetEvent).layout = .h16 := rfl
@[simp] theorem State.resetEvent_res : (s.resetEvent).res = 0 := rfl
@[simp] theorem State.resetEvent_err : (s.resetEvent).err = .ok := rfl
@[simp] theorem State.resetEvent_serr : (s.resetEvent).serr = false := rfl
@[simp] theorem State.resetEvent_vok : (s.resetEvent).vok = false := rfl
@[simp] theorem State.resetEvent_bufMax : (s.resetEvent).bufMax = s.bufMax := rfl
@[simp] theorem State.resetEvent_pending : (s.resetEvent).pending = s.pending := rfl
@[simp] theorem State.resetEvent_responses : (s.resetEvent).responses = s.responses := rfl

@[simp] theorem State.presentWord_mem (c : CmdWord) : (s.presentWord c).mem = s.mem := rfl
@[simp] theorem State.presentWord_len (c : CmdWord) : (s.presentWord c).len = s.len := rfl
@[simp] theorem State.presentWord_layout (c : CmdWord) : (s.presentWord c).layout = s.layout := rfl
@[simp] theorem State.presentWord_res (c : CmdWord) : (s.presentWord c).res = s.res := rfl
@[simp] theorem State.presentWord_err (c : CmdWord) : (s.presentWord c).err = s.err := rfl
@[simp] theorem State.presentWord_serr (c : CmdWord) : (s.presentWord c).serr = s.serr := rfl
@[simp] theorem State.presentWord_vok (c : CmdWord) : (s.presentWord c).vok = s.vok := rfl
@[simp] theorem State.presentWord_bufMax (c : CmdWord) : (s.presentWord c).bufMax = s.bufMax := rfl
@[simp] theorem State.presentWord_pending (c : CmdWord) : (s.presentWord c).pending = .command c :: s.pending := rfl
@[simp] theorem State.presentWord_responses (c : CmdWord) : (s.presentWord c).responses = s.responses := rfl
@[simp] theorem State.presentWord_buf (c : CmdWord) : (s.presentWord c).buf = s.buf := rfl
@[simp] theorem State.presentWord_readByte (c : CmdWord) (x : Nat) : (s.presentWord c).readByte x = s.readByte x := rfl
@[simp] theorem State.presentWord_readBit (c : CmdWord) (x : Nat) : (s.presentWord c).readBit x = s.readBit x := rfl

end Sys2Proof.Machine
end

