-- ==== Sys2Proof/Laws/Memory.lean ====
section
/-! SUPPORT. The buffer as cells: reading back what was stored, and the canonical form, which every memory
operation keeps (log entry 8). -/

namespace Sys2Proof.Machine

/-- The cells of a byte list that starts at `lo`, read at any address. -/
theorem Memory.read_ofBytesFrom (B : List Byte) (lo a : Nat) :
    Memory.read (Memory.ofBytesFrom lo B) a = if lo ≤ a then B.getD (a - lo) 0 else 0 := by
  induction B generalizing lo with
  | nil => simp [Memory.ofBytesFrom, Memory.read, Memory.blank]
  | cons b bs ih =>
    by_cases hb : b = Memory.blank
    · simp only [Memory.ofBytesFrom, hb, ↓reduceIte, ih]
      rcases Nat.lt_trichotomy lo a with h | rfl | h
      · obtain ⟨k, rfl⟩ : ∃ k, a = lo + 1 + k := ⟨a - (lo + 1), by omega⟩
        simp [show lo + 1 + k - lo = k + 1 by omega, show lo ≤ lo + 1 + k by omega]
      · simp [Memory.blank]
      · simp [show ¬ lo ≤ a by omega, show ¬ lo + 1 ≤ a by omega]
    · simp only [Memory.ofBytesFrom, hb, ↓reduceIte, Memory.read, ih]
      rcases Nat.lt_trichotomy lo a with h | rfl | h
      · obtain ⟨k, rfl⟩ : ∃ k, a = lo + 1 + k := ⟨a - (lo + 1), by omega⟩
        simp [show lo + 1 + k - lo = k + 1 by omega, show lo ≤ lo + 1 + k by omega,
          show lo ≠ lo + 1 + k by omega]
      · simp
      · simp [show ¬ lo ≤ a by omega, show ¬ lo + 1 ≤ a by omega, show lo ≠ a by omega]

/-- Reading back a stored byte list. -/
@[simp] theorem Memory.read_ofBytes (B : List Byte) (a : Nat) :
    Memory.read (Memory.ofBytes B) a = B.getD a 0 := by
  simp [Memory.ofBytes, Memory.read_ofBytesFrom]

/-- Cells that start at `lo` or above also start at any lower address or above. -/
theorem Memory.wfFrom_mono {m : Memory} {lo lo' : Nat} (h : lo' ≤ lo)
    (hm : Memory.wfFrom lo m = true) : Memory.wfFrom lo' m = true := by
  cases m with
  | nil => rfl
  | cons c cs =>
    simp only [Memory.wfFrom, Bool.and_eq_true, decide_eq_true_eq] at hm ⊢
    exact ⟨⟨h.trans hm.1.1, hm.1.2⟩, hm.2⟩

/-- The cells of a byte list are canonical. -/
theorem Memory.wfFrom_ofBytesFrom (B : List Byte) (lo : Nat) :
    Memory.wfFrom lo (Memory.ofBytesFrom lo B) = true := by
  induction B generalizing lo with
  | nil => rfl
  | cons b bs ih =>
    by_cases hb : b = Memory.blank
    · simpa [Memory.ofBytesFrom, hb] using Memory.wfFrom_mono (Nat.le_succ lo) (ih (lo + 1))
    · simp [Memory.ofBytesFrom, hb, Memory.wfFrom, ih (lo + 1)]

/-- The one operation that builds a memory gives the canonical form, whatever memory was there before. -/
@[simp] theorem Memory.wf_ofBytes (B : List Byte) : (Memory.ofBytes B).wf = true :=
  Memory.wfFrom_ofBytesFrom B 0

/-- The reset memory has the canonical form. -/
theorem State.reset_mem_wf : State.reset.mem.wf = true := rfl

/-- The cells of a byte list stand inside it. -/
theorem Memory.mem_ofBytesFrom (B : List Byte) (lo : Nat) :
    ∀ c ∈ Memory.ofBytesFrom lo B, c.1 < lo + B.length := by
  induction B generalizing lo with
  | nil => simp [Memory.ofBytesFrom]
  | cons b bs ih =>
    intro c hc
    have hih := ih (lo + 1) c
    by_cases hb : b = Memory.blank
    · simp only [Memory.ofBytesFrom, hb, ↓reduceIte] at hc
      have := hih hc
      simp only [List.length_cons]
      omega
    · simp only [Memory.ofBytesFrom, hb, ↓reduceIte, List.mem_cons] at hc
      simp only [List.length_cons]
      rcases hc with rfl | hc
      · simp
      · have := hih hc
        omega

/-- The cells of a byte list stand inside it. -/
theorem Memory.lt_of_mem_ofBytes {B : List Byte} {c : Host.Cell} (h : c ∈ Memory.ofBytes B) :
    c.1 < B.length := by
  simpa using Memory.mem_ofBytesFrom B 0 c h

@[simp] theorem State.buf_length (s : State) : s.buf.length = s.len := by simp [State.buf]

/-- A byte of the list view. -/
theorem State.buf_getD (s : State) (a : Nat) :
    s.buf.getD a 0 = if a < s.len then s.mem.read a else 0 := by
  by_cases h : a < s.len
  · simp [State.buf, List.getD_eq_getElem?_getD, h]
  · simp [State.buf, List.getD_eq_getElem?_getD, h]

/-- The list view of a stored byte list is that list. -/
@[simp] theorem State.buf_setBuf (s : State) (B : List Byte) : (s.setBuf B).buf = B := by
  apply List.ext_getElem
  · simp
  · intro i h1 h2
    simp [State.buf, List.getD_eq_getElem?_getD, h2]

/-- A byte read after a byte list was stored. -/
@[simp] theorem State.readByte_setBuf (s : State) (B : List Byte) (a : Nat) :
    (s.setBuf B).readByte a = B[a]? := by
  by_cases h : a < B.length <;>
    simp [State.readByte, State.setBuf, List.getD_eq_getElem?_getD, h]

/-- A byte read is that of the list view. -/
theorem State.readByte_eq (s : State) (a : Nat) : s.readByte a = s.buf[a]? := by
  by_cases h : a < s.len <;> simp [State.readByte, State.buf, h]

/-- Two states with the same bytes have the same list view. -/
theorem State.buf_ext {s t : State} (h : ∀ a, s.readByte a = t.readByte a) : s.buf = t.buf := by
  apply List.ext_getElem?
  intro a
  rw [← State.readByte_eq, ← State.readByte_eq, h]

/-- A bit read is that of the list view's byte. -/
theorem State.readBit_eq (s : State) (n : Nat) :
    s.readBit n = (s.buf.getD (n / 8) 0).getLsbD (n % 8) := by
  rw [State.readBit, State.readByte_eq, List.getD_eq_getElem?_getD]
  cases s.buf[n / 8]? <;> simp

end Sys2Proof.Machine
end

