-- ==== Sys2Proof/Laws/Operands.lean ====
section
/-! SUPPORT. What each check of the operands finds, said once (spec/60_exceptions.md R182 to R184, R187). -/

namespace Sys2Proof.Machine

variable (s : State)

/-- A width of 0 or above 64 is the first error of a field access. -/
theorem State.checkField_width {w : Nat} (a : Nat) (h : w = 0 ∨ 64 < w) :
    s.checkField a w = some .width := by
  simp [State.checkField, checkWidth, h, firstErr]

/-- A legal width is followed by the check of the range. -/
theorem State.checkField_range {w : Nat} (a : Nat) (h : 1 ≤ w) (h' : w ≤ 64) :
    s.checkField a w = s.checkBits a w := by
  have hw : ¬ (w = 0 ∨ 64 < w) := by omega
  simp [State.checkField, checkWidth, hw, firstErr]

theorem State.checkBits_eq_none (a w : Nat) : s.checkBits a w = none ↔ a + w ≤ 8 * s.len := by
  simp [State.checkBits]

theorem State.checkBits_eq_some (a w : Nat) :
    s.checkBits a w = some .range ↔ 8 * s.len < a + w := by
  simp [State.checkBits]

theorem State.checkByte_eq_none (a : Nat) : s.checkByte a = none ↔ a < s.len := by
  simp [State.checkByte]

theorem State.checkByte_eq_some (a : Nat) : s.checkByte a = some .range ↔ s.len ≤ a := by
  simp [State.checkByte]

theorem State.checkLength_eq_none (n : Nat) : s.checkLength n = none ↔ n ≤ s.bufMax := by
  simp [State.checkLength]

theorem State.checkLength_eq_some (n : Nat) : s.checkLength n = some .range ↔ s.bufMax < n := by
  simp [State.checkLength]

theorem State.checkHeader_eq_none : s.checkHeader = none ↔ 16 ≤ s.len := by
  simp [State.checkHeader]

theorem State.checkHeader_eq_some : s.checkHeader = some .range ↔ s.len < 16 := by
  simp [State.checkHeader]

/-- A name that the layout lacks is the first error of a named access. -/
theorem State.checkNamed_none {id : Nat} (h : lookup s.layout id = none) :
    s.checkNamed id = some .name := by
  simp [State.checkNamed, h]

/-- A name that the layout has is followed by the check of its range. -/
theorem State.checkNamed_some {id a w : Nat} (h : lookup s.layout id = some (a, w)) :
    s.checkNamed id = s.checkBits a w := by
  simp [State.checkNamed, h]

theorem State.namedField_some {id a w : Nat} (h : lookup s.layout id = some (a, w)) :
    s.namedField id = (a, w) := by
  simp [State.namedField, h]

/-- A control register number names something exactly when it is at most 3 (10_state.md R25). -/
theorem State.csr_isNone (c : Nat) : (s.csr c).isNone = decide (3 < c) := by
  match c with
  | 0 | 1 | 2 | 3 => rfl
  | n + 4 => simp [State.csr]

/-- A layout number names something exactly when it is at most 1 (42_buffer_control.md R163). -/
theorem Layout.ofNumber_isNone (l : Nat) : (Layout.ofNumber l).isNone = decide (1 < l) := by
  match l with
  | 0 | 1 => rfl
  | n + 2 => simp [Layout.ofNumber]

end Sys2Proof.Machine
end

