-- ==== Sys2Proof/Laws/PerInstr.lean ====
section
/-! SUPPORT. The family `AssembledFields`: the four fields of the word that `encode` assembles, command by command.
An assembled word has every ignored field 0 (spec/30_encoding.md R60, R61, R66). -/

namespace Sys2Proof.Laws.AssembledFields

/-- The fields that the word of a command holds, the opcode as R61's number and an ignored field as 0. -/
def expected : Instr → Byte × BitVec 8 × BitVec 32 × Wide
  | .setlen n => (0x01, 0, BitVec.ofNat 32 n, 0)
  | .ldb a b => (0x02, 0, BitVec.ofNat 32 a, b.setWidth 128)
  | .rdb a => (0x03, 0, BitVec.ofNat 32 a, 0)
  | .setlayout l => (0x04, 0, BitVec.ofNat 32 l, 0)
  | .clrerr => (0x05, 0, 0, 0)
  | .rdcsr c => (0x06, 0, BitVec.ofNat 32 c, 0)
  | .extract a w => (0x10, BitVec.ofNat 8 w, BitVec.ofNat 32 a, 0)
  | .set a w v => (0x11, BitVec.ofNat 8 w, BitVec.ofNat 32 a, v.setWidth 128)
  | .frd f => (0x12, 0, BitVec.ofNat 32 f, 0)
  | .fwr f v => (0x13, 0, BitVec.ofNat 32 f, v.setWidth 128)
  | .rd128 => (0x14, 0, 0, 0)
  | .wr128 v => (0x15, 0, 0, v)
  | .calc12 => (0x20, 0, 0, 0)
  | .embed a w => (0x21, BitVec.ofNat 8 w, BitVec.ofNat 32 a, 0)
  | .verify a w => (0x22, BitVec.ofNat 8 w, BitVec.ofNat 32 a, 0)

/-- The word of a command holds the expected fields. -/
def Statement (i : Instr) : Prop :=
  (opField (encode i), wField (encode i), aField (encode i), dField (encode i)) = expected i

/-- The fields of an assembled word are the ones it was assembled from. -/
theorem fields_encode (i : Instr) :
    (opField (encode i), wField (encode i), aField (encode i), dField (encode i)) =
      (i.opcode.code, BitVec.ofNat 8 i.wOperand, BitVec.ofNat 32 i.aOperand, i.dOperand) := by
  simp [encode]

theorem setlen (n : Nat) : Statement (.setlen n) := fields_encode _

theorem ldb (a : Nat) (b : Byte) : Statement (.ldb a b) := fields_encode _

theorem rdb (a : Nat) : Statement (.rdb a) := fields_encode _

theorem setlayout (l : Nat) : Statement (.setlayout l) := fields_encode _

theorem clrerr : Statement .clrerr := fields_encode _

theorem rdcsr (c : Nat) : Statement (.rdcsr c) := fields_encode _

theorem extract (a : Nat) (w : Nat) : Statement (.extract a w) := fields_encode _

theorem set (a : Nat) (w : Nat) (v : BitVec 64) : Statement (.set a w v) := fields_encode _

theorem frd (f : Nat) : Statement (.frd f) := fields_encode _

theorem fwr (f : Nat) (v : BitVec 64) : Statement (.fwr f v) := fields_encode _

theorem rd128 : Statement .rd128 := fields_encode _

theorem wr128 (v : Wide) : Statement (.wr128 v) := fields_encode _

theorem calc12 : Statement .calc12 := fields_encode _

theorem embed (a : Nat) (w : Nat) : Statement (.embed a w) := fields_encode _

theorem verify (a : Nat) (w : Nat) : Statement (.verify a w) := fields_encode _

end Sys2Proof.Laws.AssembledFields
end

