-- ==== Sys2Proof/Laws/Step.lean ====
section
/-! SUPPORT. What a checked command, a command and a step can do, said once: a later proof cites these and does
not unfold `exec` or `step`. -/

namespace Sys2Proof.Machine

@[simp] theorem runChecked_none (s : State) (f : State → State) :
    runChecked none s f = .next (f s) := rfl

@[simp] theorem runChecked_some (e : Err) (s : State) (f : State → State) :
    runChecked (some e) s f = .next (s.raiseErr e) := rfl

/-- A checked command either raises the error of its check or has its effect. -/
theorem runChecked_cases {check : Option Err} {s t : State} {f : State → State}
    (h : runChecked check s f = .next t) :
    (∃ e, check = some e ∧ t = s.raiseErr e) ∨ (check = none ∧ t = f s) := by
  cases check with
  | none => exact .inr ⟨rfl, by simpa using h.symm⟩
  | some e => exact .inl ⟨e, rfl, by simpa using h.symm⟩

/-- The check of a command and its effect, as one table: `exec` runs the one and then the other. -/
def checkOf (i : Instr) (s : State) : Option Err :=
  match i with
  | .setlen n => s.checkLength n
  | .ldb a _ => s.checkByte a
  | .rdb a => s.checkByte a
  | .setlayout l => checkLayout l
  | .clrerr => none
  | .rdcsr c => s.checkCsr c
  | .extract a w => s.checkField a w
  | .set a w _ => s.checkField a w
  | .frd f => s.checkNamed f
  | .fwr f _ => s.checkNamed f
  | .rd128 => s.checkHeader
  | .wr128 _ => s.checkHeader
  | .calc12 => none
  | .embed a w => s.checkField a w
  | .verify a w => s.checkField a w

/-- The effect of a command whose check finds no error. -/
def effectOf (i : Instr) (s : State) : State :=
  match i with
  | .setlen n => (s.setBuf (Bytes.resize s.buf n)).finish
  | .ldb a b => (s.setBuf (Bytes.memWrite s.buf a 1 b.toNat)).finish
  | .rdb a => s.finishWith (zext128 (Bytes.memRead s.buf a 1))
  | .setlayout l => (s.setLayout ((Layout.ofNumber l).getD .h16)).finish
  | .clrerr => s.clearSerr.finish
  | .rdcsr c => s.finishWith (zext128 ((s.csr c).getD 0))
  | .extract a w => s.finishWith (zext128 (Bytes.extract s.buf a w))
  | .set a w v => (s.setBuf (Bytes.insert s.buf a w v.toNat)).finish
  | .frd f => s.finishWith (zext128 (Bytes.extract s.buf (s.namedField f).1 (s.namedField f).2))
  | .fwr f v =>
    (s.setBuf (Bytes.insert s.buf (s.namedField f).1 (s.namedField f).2 v.toNat)).finish
  | .rd128 => s.finishWith (zext128 (Bytes.memRead s.buf 0 16))
  | .wr128 v => (s.setBuf (Bytes.memWrite s.buf 0 16 v.toNat)).finish
  | .calc12 => s.finishWith (zext128 (calc12 s.buf))
  | .embed a w =>
    (s.setBuf (embedBytes s.buf a w)).finishWith (zext128 (checksumZeroed s.buf a w))
  | .verify a w =>
    (s.setVok (verifyBytes s.buf a w)).finishWith (zext128 (verifyBytes s.buf a w).toNat)

/-- Every command is its check and its effect. -/
theorem exec_eq (i : Instr) (s : State) : exec i s = runChecked (checkOf i s) s (effectOf i) := by
  cases i <;> rfl

/-- Everything a command can do. -/
theorem exec_cases {i : Instr} {s t : State} (h : exec i s = .next t) :
    (∃ e, checkOf i s = some e ∧ t = s.raiseErr e) ∨ (checkOf i s = none ∧ t = effectOf i s) :=
  runChecked_cases (exec_eq i s ▸ h)

/-- A command whose check finds an error. -/
theorem exec_of_some {i : Instr} {s : State} {e : Err} (h : checkOf i s = some e) :
    exec i s = .next (s.raiseErr e) := by
  rw [exec_eq, h, runChecked_some]

/-- A command whose check finds none. -/
theorem exec_of_none {i : Instr} {s : State} (h : checkOf i s = none) :
    exec i s = .next (effectOf i s) := by
  rw [exec_eq, h, runChecked_none]

/-- Everything a step can do, by the oldest input of the host. -/
theorem step_cases {s t : State} (h : step s = .next t) :
    (s.pending = [] ∧ t = s) ∨
    (∃ rest, s.pending = .reset :: rest ∧ t = State.resetEvent { s with pending := rest }) ∨
    (∃ c rest e, s.pending = .command c :: rest ∧ decode c = .error e ∧
      t = State.raiseErr { s with pending := rest } .op) ∨
    (∃ c rest i, s.pending = .command c :: rest ∧ decode c = .ok i ∧
      exec i { s with pending := rest } = .next t) := by
  unfold step State.present at h
  match hp : s.pending with
  | [] =>
    simp only [hp, execNothing] at h
    exact .inl ⟨rfl, by simpa using h.symm⟩
  | .reset :: rest =>
    simp only [hp, execResetEvent] at h
    exact .inr (.inl ⟨rest, rfl, by simpa using h.symm⟩)
  | .command c :: rest =>
    simp only [hp] at h
    match hd : decode c with
    | .ok i =>
      simp only [hd] at h
      exact .inr (.inr (.inr ⟨c, rest, i, rfl, hd, h⟩))
    | .error e =>
      simp only [hd, execReserved] at h
      exact .inr (.inr (.inl ⟨c, rest, e, rfl, hd, by simpa using h.symm⟩))

end Sys2Proof.Machine
end

