-- ==== Sys2Proof/Tests/Slice0.lean ====
section
/-! SUPPORT. The model's own tests: ill-formed terms refused, words written out from the encodings, single steps
with the values of spec/95_test_vectors.md, and for each obligation with hypotheses a concrete state and
operands that meet them all, clause by clause at the boundary. No expected value comes from the model. -/

namespace Sys2Proof.Tests

open Sys2Proof.Machine

/-- A reset block that holds these bytes. -/
def holding (B : List Byte) : State := State.reset.setBuf B

/-- The next state of a step, if there is one. -/
def nextOf : Host.Outcome State Fault Refusal → Option State
  | .next s => some s
  | .fault _ => none
  | .refused _ => none

/-- What a command makes of one view of the state. -/
def after {α : Type} (view : State → α) (i : Instr) (s : State) : Option α := (nextOf (exec i s)).map view

/-- The header of program P1 (95_test_vectors.md 2.1). -/
def headerP1 : List Byte :=
  [0x31, 0x12, 0x08, 0x01, 0, 0xF1, 0x53, 0x65, 0, 0, 0, 0, 0, 0, 0xE0, 0xC7]

/-- The packet at the end of program P1: the header and the golden vector S1. -/
def packetP1 : List Byte := headerP1 ++ [0x04, 0x84, 0xC0, 0x0E, 0x16, 0x02]

/-- A command word with `n` zero bytes behind the bytes that are written out. -/
def padded (bs : List Byte) : List Byte := bs ++ List.replicate (22 - bs.length) 0

/-! ## WellFormed: an ill-formed term for each check -/

/-- An operand of 33 bits fits no field `a` (30_encoding.md R60). -/
theorem test_wellFormed_refuses_long_operand :
    (Instr.setlen (2 ^ 32)).wellFormed = false ∧ (Instr.ldb (2 ^ 32) 0).wellFormed = false ∧
    (Instr.rdb (2 ^ 32)).wellFormed = false ∧ (Instr.setlayout (2 ^ 32)).wellFormed = false ∧
    (Instr.rdcsr (2 ^ 32)).wellFormed = false ∧ (Instr.extract (2 ^ 32) 1).wellFormed = false ∧
    (Instr.set (2 ^ 32) 1 0).wellFormed = false ∧ (Instr.frd (2 ^ 32)).wellFormed = false ∧
    (Instr.fwr (2 ^ 32) 0).wellFormed = false ∧ (Instr.embed (2 ^ 32) 12).wellFormed = false ∧
    (Instr.verify (2 ^ 32) 12).wellFormed = false := by decide

/-- A width of 9 bits fits no field `w` (30_encoding.md R60). -/
theorem test_wellFormed_refuses_long_width :
    (Instr.extract 0 256).wellFormed = false ∧ (Instr.set 0 256 0).wellFormed = false ∧
    (Instr.embed 0 256).wellFormed = false ∧ (Instr.verify 0 256).wellFormed = false := by decide

/-! ## Decoding: every constructor by a word written out from R60 and R61 -/

/-- Programs P1 and P4: the buffer and control commands. -/
theorem test_decode_control_words :
    decodeBytes (padded [0x01, 0, 0x16]) = .ok (.setlen 22, []) ∧
    decodeBytes (padded [0x02, 0, 0x10, 0, 0, 0, 0x04]) = .ok (.ldb 16 4, []) ∧
    decodeBytes (padded [0x03, 0, 0x02]) = .ok (.rdb 2, []) ∧
    decodeBytes (padded [0x04, 0, 0x01]) = .ok (.setlayout 1, []) ∧
    decodeBytes (padded [0x05]) = .ok (.clrerr, []) ∧
    decodeBytes (padded [0x06, 0, 0x03]) = .ok (.rdcsr 3, []) := by decide

/-- Programs P1, P2 and P4, and section 2.4: the Bit Frame commands. -/
theorem test_decode_bitframe_words :
    decodeBytes (padded [0x10, 0x0A, 0x80]) = .ok (.extract 128 10, []) ∧
    decodeBytes (padded [0x11, 0, 0xFF, 0xFF, 0xFF, 0xFF, 0x01]) = .ok (.set 4294967295 0 1, []) ∧
    decodeBytes (padded [0x12, 0, 0x0D]) = .ok (.frd 13, []) ∧
    decodeBytes (padded [0x13, 0, 0x0D, 0, 0, 0, 0xEF, 0xCD, 0xAB, 0x89, 0x67, 0x45, 0x23, 0x01]) =
      .ok (.fwr 13 0x0123456789ABCDEF, []) ∧
    decodeBytes (padded [0x14]) = .ok (.rd128, []) ∧
    decodeBytes [0x15, 0, 0, 0, 0, 0, 0x00, 0x01, 0x02, 0x03, 0x04, 0x05, 0x06, 0x07, 0x08, 0x09,
        0x0A, 0x0B, 0x0C, 0x0D, 0x0E, 0x0F] =
      .ok (.wr128 0x0F0E0D0C0B0A09080706050403020100, []) := by decide

/-- Program P1 and section 2.10: the checksum commands, CALC with every other bit of the word 1. -/
theorem test_decode_checksum_words :
    decodeBytes (0x20 :: List.replicate 21 0xFF) = .ok (.calc12, []) ∧
    decodeBytes (padded [0x21, 0x0C, 0x74]) = .ok (.embed 116 12, []) ∧
    decodeBytes (padded [0x22, 0x0C, 0x74]) = .ok (.verify 116 12, []) := by decide

/-- Bit by bit from R60, bits 47 down to 0 of the word, those above being 0: `SETLEN 5` (op 0x01),
`EXTRACT 10, 6` (op 0x10) and `EMBED 116, 12` (op 0x21), one for each family. -/
theorem test_decode_written_bits :
    decode 0b00000000000000000000000000000101_00000000_00000001 = .ok (.setlen 5) ∧
    decode 0b00000000000000000000000000001010_00000110_00010000 = .ok (.extract 10 6) ∧
    decode 0b00000000000000000000000001110100_00001100_00100001 = .ok (.embed 116 12) := by decide

/-- Program P4 steps 3 to 8: an opcode from every gap of R64. -/
theorem test_decode_reserved_words :
    decode 0 = .error (.reservedOpcode 0) ∧ decode 0x07 = .error (.reservedOpcode 0x07) ∧
    decode 0x16 = .error (.reservedOpcode 0x16) ∧ decode 0x23 = .error (.reservedOpcode 0x23) ∧
    decode (-1) = .error (.reservedOpcode 0xFF) ∧
    decodeBytes [0x01, 0x00] = .error (.shortWord 2) := by decide

/-- R66: `SET 4, 12, 0xABCDE` assembles to the bytes of the example. -/
theorem test_encode_set_example : encodeBytes (.set 4 12 0xABCDE) =
    padded [0x11, 0x0C, 0x04, 0x00, 0x00, 0x00, 0xDE, 0xBC, 0x0A] := by decide

/-- The host's two questions of a table row: SETLEN 64 as the first command after reset (R5: 64 is legal). -/
theorem test_withFetchWord_runs_setlen :
    decodeTableWord 176 0x400001 = some (.setlen 64) ∧
    (nextOf (step (State.reset.withFetchWord 176 0x400001))).map State.len = some 64 := by decide

/-! ## Single commands, with the values of 95_test_vectors.md -/

/-- R160's example and section 2.8. -/
theorem test_setlen_grows_with_zeros :
    after State.buf (.setlen 5) (holding [0xAA, 0xBB, 0xCC]) = some [0xAA, 0xBB, 0xCC, 0, 0] := by
  decide

/-- Section 2.8: 65 is above the capacity of 64, and shrinking keeps the low bytes. -/
theorem test_setlen_limit :
    after State.statusValue (.setlen 65) (holding [0xAA, 0x00]) = some 0x0B ∧
    after State.buf (.setlen 1) (holding [0xAA, 0xBB, 0xCC]) = some [0xAA] := by decide

/-- Section 2.8: only `d[7:0]` is stored. -/
theorem test_ldb_stores_low_byte :
    (decodeBytes (padded [0x02, 0, 0, 0, 0, 0, 0xFF, 0x01])).map Prod.fst = .ok (.ldb 0 0xFF) ∧
    after State.buf (.ldb 0 0xFF) (holding [0x00, 0x84]) = some [0xFF, 0x84] := by decide

/-- R162's example. -/
theorem test_rdb_reads_byte :
    after State.res (.rdb 1) (holding [0xE0, 0xCD]) = some 0xCD ∧
    after State.err (.rdb 2) (holding [0xE0, 0xCD]) = some .range := by decide

/-- R163's example, and section 2.8 for a layout number above 1. -/
theorem test_setlayout :
    after State.layout (.setlayout 1) State.reset = some .h20 ∧
    after State.err (.setlayout 2) State.reset = some .name := by decide

/-- R164's second example: `0x1B` becomes `0x10`. -/
theorem test_clrerr_keeps_vok :
    after State.statusValue .clrerr { State.reset with err := .range, serr := true, vok := true } =
      some 0x10 := by decide

/-- R165's example, and the capacity of section 2.8. -/
theorem test_rdcsr :
    after State.res (.rdcsr 0) { State.reset with err := .range, serr := true } = some 0x0B ∧
    after State.res (.rdcsr 3) State.reset = some 0x40 := by decide

/-- Section 2.1: a field across bytes 0 and 1, and 64 bits from an odd position, which reads nine bytes. -/
theorem test_extract_crosses_bytes :
    after State.res (.extract 4 12) (holding headerP1) = some 0x123 ∧
    after State.res (.extract 1 64) (holding headerP1) = some 0x32A9F88000840918 := by decide

/-- S1: the one byte sequence of the source, which fixes the bit order. -/
theorem test_extract_golden_vector :
    after State.res (.extract 0 10) (holding [0x04, 0x84, 0xC0, 0x0E, 0x16, 0x02]) = some 4 ∧
    after State.res (.extract 16 32) (holding [0x04, 0x84, 0xC0, 0x0E, 0x16, 0x02]) =
      some 35000000 := by decide

/-- R103's examples: truncation, and the neighbours in both bytes kept. -/
theorem test_set_keeps_neighbours :
    after State.buf (.set 4 12 0xABCDE) (holding [0, 0]) = some [0xE0, 0xCD] ∧
    after State.buf (.set 5 6 0x2A) (holding [0xFF, 0xFF, 0xFF, 0xFF]) =
      some [0x5F, 0xFD, 0xFF, 0xFF] := by decide

/-- R104's example, and section 2.3: a tail field under H16 is no name. -/
theorem test_frd_packet_id :
    after State.res (.frd 1) (holding headerP1) = some 0x123 ∧
    after State.err (.frd 16) (holding packetP1) = some .name := by decide

/-- R105: `FWR day, 15` stores 7, in bits 27 to 29. -/
theorem test_fwr_truncates :
    after State.buf (.fwr 11 15) (holding [0, 0, 0, 0]) = some [0, 0, 0, 0x38] := by decide

/-- R106's example. -/
theorem test_rd128_header :
    after State.res .rd128 (holding headerP1) = some 0xC7E00000000000006553F10001081231 := by decide

/-- R107's example, with a 17th byte that stays. -/
theorem test_wr128_header :
    after State.buf (.wr128 0x0F0E0D0C0B0A09080706050403020100) (holding (List.replicate 17 0xFF)) =
      some [0x00, 0x01, 0x02, 0x03, 0x04, 0x05, 0x06, 0x07, 0x08, 0x09, 0x0A, 0x0B, 0x0C, 0x0D, 0x0E,
        0x0F, 0xFF] := by decide

/-- R135's example, and the row of section 2.5 that needs two folds. -/
theorem test_calc_vectors :
    after State.res .calc12 (holding [0x04, 0x84, 0xC0, 0x0E, 0x16, 0x02]) = some 0x9C3 ∧
    after State.res .calc12 (holding [0xFF, 0xFF, 0xFF, 0xFF, 0x2F, 0x00]) = some 0xFFD := by decide

/-- R136's example. -/
theorem test_embed_zero_header :
    after State.res (.embed 116 12) (holding (List.replicate 16 0)) = some 0xFFF ∧
    after State.mem (.embed 116 12) (holding (List.replicate 16 0)) = some [(14, 0xF0), (15, 0xFF)] := by
  decide

/-- Section 2.6: a field of 8 bits holds the checksum truncated, but all of it is returned. -/
theorem test_embed_narrow :
    after (fun t => (t.res, t.readByte 15)) (.embed 116 8)
      (holding (headerP1.take 14 ++ [0x00, 0x00, 0x04, 0x84, 0xC0, 0x0E, 0x16, 0x02])) =
      some (0xC7E, some 0x07) := by decide

/-- R137's example: 1, and 0 after one bit of byte 5 is flipped. -/
theorem test_verify_detects_flip :
    after State.vok (.verify 116 12) (holding packetP1) = some true ∧
    after State.vok (.verify 116 12) (holding (packetP1.set 5 0xE1)) = some false := by decide

/-- S7 and R67, R212: the serialize order for a request with one extension entry ends in P1's packet. -/
theorem test_serialize_order :
    (serialize .h16 [(.version, 1)] [0x04, 0x84]).length = 26 ∧
    (serialize .h16 [(.version, 1)] [0x04, 0x84]).take 8 =
      [.setlen 0, .setlen 18, .setlayout 0, .fwr 0 1, .fwr 8 1, .ldb 16 0x04, .ldb 17 0x84,
        .embed 116 12] := by decide

/-- Program P2 steps 1 to 6: the commands of R213's steps 2 to 4; steps 7 to 9, the entry by EXTRACT; and R213's
step 5, bytes 16 to 21 of the 22. -/
theorem test_parse_order :
    (parse 0 packetP1 [.packetId, .exFlag, .timestamp]).map
        (fun p => (p.load.head?, p.load.length, p.check, p.fields, p.extension)) =
      .ok (some (.setlen 22), 23, [.frd 2, .verify 116 12],
        [.setlayout 0, .frd 1, .frd 8, .frd 13],
        [.rdb 16, .rdb 17, .rdb 18, .rdb 19, .rdb 20, .rdb 21]) ∧
    parseEntryHeader 128 ++ [parseEntryPayload 128 4] =
      [.extract 128 10, .extract 138 6, .extract 144 32] := by decide

/-- R213: 15 bytes are too short for type 0, 19 for type 3, and 20 are not; a wrong type comes before a checksum
of 0. -/
theorem test_parse_rejects :
    parse 0 (List.replicate 15 0) [] = .error .tooShort ∧
    parse 3 (List.replicate 19 0) [] = .error .tooShort ∧
    (parse 3 (List.replicate 20 0) []).map Parse.extension = .ok [] ∧
    parse 6 (List.replicate 64 0) [] = .error .noVariant ∧
    parseVerdict 0 1 0 = some .wrongType ∧ parseVerdict 0 0 0 = some .checksumMismatch ∧
    parseVerdict 0 0 1 = none := by decide

/-- R76: the layout of every packet type, none for the unused type 6. -/
theorem test_layoutOfType : (List.range 8).map (fun t => layoutOfType (BitVec.ofNat 3 t)) =
    [some .h16, some .h16, some .h16, some .h20, some .h16, some .h20, none, some .h20] := by decide

/-- R78 on the golden vector: length 4, id 33. -/
theorem test_extension_entry_header :
    extEntryLength [0x04, 0x84] 0 = 4 ∧ extEntryId [0x04, 0x84] 0 = 33 := by decide

/-! ## Witnesses: the hypotheses of each obligation are met -/

/-- Three bytes that hold a checksum of 12 bits at bit 12 (word 0 is 1, its complement 0xFFE). -/
def sealed3 : State := holding [0x01, 0xE0, 0xFF]

/-- `SETLEN 64` waiting, with more behind it. -/
def waiting : State := (State.reset.presentWord 0x23).presentWord 0x400001

theorem witness_AssembledWordsFollowTheTable :
    WellFormed (.embed (2 ^ 32 - 1) 255) ∧ WellFormed (.setlen (2 ^ 32 - 1)) := by decide

theorem witness_EncodedCommandDecodes : WellFormed (.set (2 ^ 32 - 1) 255 (-1)) := by decide

theorem witness_DecodedCommandIsWellFormed :
    decode (0x22 : CmdWord) = .ok (.verify 0 0) := by decide

theorem witness_UnreadFieldsAreIgnored :
    decode (0x05 : CmdWord) = .ok .clrerr ∧ opField (0xFFFF05 : CmdWord) = opField (0x05 : CmdWord) ∧
    decode (0x020001 : CmdWord) = .ok (.setlen 2) ∧
    opField (0x02FF01 : CmdWord) = opField (0x020001 : CmdWord) ∧
    aField (0x02FF01 : CmdWord) = aField (0x020001 : CmdWord) := by decide

/-- The other clauses: junk in `d` for EXTRACT, above byte 0 of `d` (and in `w`) for LDB, in `w` and above bit 63 of
`d` for FWR, above bit 63 of `d` for SET, and in `a` and `w` for WR128. -/
theorem witness_UnreadFieldsAreIgnored_clauses :
    (decode 0xA0610 = .ok (.extract 10 6) ∧
      opField 0x50000000A0610 = opField 0xA0610 ∧
      aField 0x50000000A0610 = aField 0xA0610 ∧
      wField 0x50000000A0610 = wField 0xA0610) ∧
    (decode 0xFF000000020002 = .ok (.ldb 2 255) ∧
      opField 0x1FF000000020302 = opField 0xFF000000020002 ∧
      aField 0x1FF000000020302 = aField 0xFF000000020002 ∧
      (dField 0x1FF000000020302).extractLsb' 0 8 = (dField 0xFF000000020002).extractLsb' 0 8) ∧
    (decode 0xF000000020013 = .ok (.fwr 2 15) ∧
      opField 0x5000000000000000F000000027713 = opField 0xF000000020013 ∧
      aField 0x5000000000000000F000000027713 = aField 0xF000000020013 ∧
      (dField 0x5000000000000000F000000027713).extractLsb' 0 64 = (dField 0xF000000020013).extractLsb' 0 64) ∧
    (decode 0x1000000040C11 = .ok (.set 4 12 1) ∧
      opField 0x10000000000000001000000040C11 = opField 0x1000000040C11 ∧
      aField 0x10000000000000001000000040C11 = aField 0x1000000040C11 ∧
      wField 0x10000000000000001000000040C11 = wField 0x1000000040C11 ∧
      (dField 0x10000000000000001000000040C11).extractLsb' 0 64 = (dField 0x1000000040C11).extractLsb' 0 64) ∧
    (decode 0x7000000000015 = .ok (.wr128 7) ∧
      opField 0x7000000090915 = opField 0x7000000000015 ∧
      dField 0x7000000090915 = dField 0x7000000000015) := by decide

theorem witness_ReservedOpcodeEndsInErrOp :
    (State.reset.presentWord 0x0C23).pending = [.command 0x0C23] ∧
    (0x0C23 : CmdWord).toNat % 256 ∉ [0x01, 0x02, 0x03, 0x04, 0x05, 0x06, 0x10, 0x11, 0x12, 0x13,
      0x14, 0x15, 0x20, 0x21, 0x22] ∧
    (0x0C22 : CmdWord).toNat % 256 ∈ [0x01, 0x02, 0x03, 0x04, 0x05, 0x06, 0x10, 0x11, 0x12, 0x13,
      0x14, 0x15, 0x20, 0x21, 0x22] := by decide

theorem witness_StepRunsTheDecodedCommand :
    waiting.pending = [.command 0x400001, .command 0x23] ∧ decode 0x400001 = .ok (.setlen 64) := by
  decide

theorem witness_ResetEmptiesBufferAndClearsRegisters :
    ({ sealed3 with pending := [.reset, .command 0] } : State).pending = .reset :: [.command 0] := rfl

theorem witness_EveryStepKeepsInvariant :
    waiting.Inv ∧ ∃ t, step waiting = .next t ∧ t.len = 64 :=
  ⟨by constructor <;> decide, _, rfl, by decide⟩

theorem witness_EveryCommandGivesOneResponse :
    waiting.pending = .command 0x400001 :: [.command 0x23] := by decide

/-- A success that produces a value, one that produces none, and an error. -/
theorem witness_EveryCommandGivesOneResponse_clauses :
    (∃ t, step (sealed3.presentWord 0x020003) = .next t ∧ t.err = .ok ∧
      decode 0x020003 = .ok (.rdb 2) ∧ producesValue (.rdb 2) = true) ∧
    (∃ t, step (sealed3.presentWord 0x05) = .next t ∧ t.err = .ok ∧
      decode 0x05 = .ok .clrerr ∧ producesValue .clrerr = false) ∧
    ∃ t, step (sealed3.presentWord 0x030003) = .next t ∧ t.err ≠ .ok :=
  ⟨⟨_, rfl, by decide, by decide, by decide⟩, ⟨_, rfl, by decide, by decide, by decide⟩,
    ⟨_, rfl, by decide⟩⟩

theorem witness_ErrorHasNoEffectOnData :
    ((sealed3.presentWord 0x3).presentWord 0x23).pending = [.command 0x23, .command 0x3] := by decide

theorem witness_ErrorHasNoEffectOnData_fails :
    ∃ t, step (sealed3.presentWord 0x030003) = .next t ∧ t.err = .range :=
  ⟨_, rfl, by decide⟩

theorem witness_StatusIsLatchedByEveryCommand :
    ∃ t, step ({ sealed3 with serr := true }.presentWord 0x05) = .next t ∧ t.err = .ok ∧
      decode (0x05 : CmdWord) = .ok .clrerr :=
  ⟨_, rfl, by decide, by decide⟩

theorem witness_StatusIsLatchedByEveryCommand_other :
    ∃ t, step ({ sealed3 with serr := true }.presentWord 0x020003) = .next t ∧ t.err = .ok ∧
      decode (0x020003 : CmdWord) ≠ .ok .clrerr :=
  ⟨_, rfl, by decide, by decide⟩

theorem witness_EveryCommandReportsTheFirstError :
    (sealed3.presentWord 0xFFFFFFFF0011).pending = [.command 0xFFFFFFFF0011] := by decide

theorem witness_StateIsWrittenOnlyByItsCommands :
    (∃ t, exec (.verify 12 12) sealed3 = .next t ∧ t.vok ≠ sealed3.vok ∧ t.res ≠ sealed3.res) ∧
    (∃ t, exec (.setlayout 1) sealed3 = .next t ∧ t.layout ≠ sealed3.layout) ∧
    (∃ t, exec (.setlen 2) sealed3 = .next t ∧ t.len ≠ sealed3.len ∧
      t.readByte 2 ≠ sealed3.readByte 2) ∧
    ∃ t, exec .clrerr { sealed3 with serr := true } = .next t ∧ t.serr = false :=
  ⟨⟨_, rfl, by decide, by decide⟩, ⟨_, rfl, by decide⟩, ⟨_, rfl, by decide, by decide⟩,
    ⟨_, rfl, by decide⟩⟩

theorem witness_OutcomeDependsOnBufferAndLayoutOnly :
    (Instr.rdb 2 ≠ .rdcsr 0) ∧ sealed3.len = { sealed3 with res := 7, err := .op }.len ∧
    (∀ a, sealed3.readByte a = { sealed3 with res := 7, err := .op }.readByte a) ∧
    sealed3 ≠ { sealed3 with res := 7, err := .op } :=
  ⟨by decide, rfl, fun _ => rfl, by decide⟩

theorem witness_SetlenTruncatesOrZeroExtends : sealed3.bufMax < 65 ∧ 64 ≤ sealed3.bufMax := by decide

theorem witness_LdbStoresOneByte : sealed3.len ≤ 3 ∧ 2 < sealed3.len := by decide

theorem witness_RdbProducesTheByte : sealed3.len ≤ 3 ∧ 2 < sealed3.len := by decide

theorem witness_SetlayoutSelectsTheTable : 1 < 2 := by decide

theorem witness_RdcsrProducesTheOldValue : 3 < 4 := by decide

theorem witness_ClrbufGivesZeroBytes : 64 ≤ sealed3.bufMax := by decide

/-- For EXTRACT, SET, EMBED and VERIFY: width 0 and 65, a range one bit too long, and one that ends with the
buffer. -/
theorem witness_bit_range_clauses :
    ((0 : Nat) = 0 ∨ 64 < 0) ∧ ((65 : Nat) = 0 ∨ 64 < 65) ∧
    (1 ≤ 64 ∧ 64 ≤ 64 ∧ 8 * (holding headerP1).len < 65 + 64) ∧
    (1 ≤ 64 ∧ 64 ≤ 64 ∧ 64 + 64 ≤ 8 * (holding headerP1).len) ∧
    (1 ≤ 1 ∧ 1 ≤ 64 ∧ 127 + 1 ≤ 8 * (holding headerP1).len) := by decide

theorem witness_ExtractProducesTheFieldBits :
    exec (.extract 64 64) (holding headerP1) =
      .next ((holding headerP1).produced 0xC7E0000000000000) := by rfl

theorem witness_SetWritesTheFieldBitsOnly :
    (3 < 4 / 8 ∨ (4 + 12 - 1) / 8 < 3) ∧ 4 + 12 ≤ 8 * sealed3.len := by decide

/-- For FRD and FWR: no name, a field one byte too long for the buffer, and a field that ends with it. -/
theorem witness_named_clauses :
    lookup State.reset.layout 16 = none ∧ lookup State.reset.layout 19 = none ∧
    (lookup State.reset.layout 15 = some (116, 12) ∧
      8 * (holding (headerP1.take 15)).len < 116 + 12 ∧ 116 + 12 ≤ 8 * (holding headerP1).len) := by
  decide

theorem witness_LookupFollowsTheTable :
    lookup State.reset.layout 16 = none ∧ lookup .h20 19 = none := by decide

theorem witness_FrdProducesTheNamedField :
    lookup (holding headerP1).layout 15 = some (116, 12) ∧
    116 + 12 ≤ 8 * (holding headerP1).len := by decide

theorem witness_FwrWritesTheNamedFieldOnly :
    lookup (holding headerP1).layout 15 = some (116, 12) ∧
    116 + 12 ≤ 8 * (holding headerP1).len ∧ (13 < 116 / 8 ∨ (116 + 12 - 1) / 8 < 13) := by decide

theorem witness_Rd128ProducesTheHeader :
    (holding (headerP1.take 15)).len < 16 ∧ 16 ≤ (holding headerP1).len := by decide

theorem witness_Wr128WritesTheHeaderOnly :
    (holding (headerP1.take 15)).len < 16 ∧ 16 ≤ (holding headerP1).len := by decide

theorem witness_FieldsTileTheHeader :
    (15 ≠ 16 ∧ lookup .h20 15 = some (116, 12) ∧ lookup .h20 16 = some (128, 16)) ∧
    159 < 8 * Layout.h20.headerBytes := by decide

theorem witness_NamedAccessIsFieldAccess : lookup State.reset.layout 13 = some (32, 64) := by decide

theorem witness_NamedFieldReadsBack :
    lookup (holding headerP1).layout 15 = some (116, 12) ∧
    116 + 12 ≤ 8 * (holding headerP1).len ∧ 14 ≠ 15 := by decide

theorem witness_WideRoundTrip : 16 ≤ (holding headerP1).len := by decide

theorem witness_WritesAreIdempotent :
    (∃ a w v, Instr.set 4 12 1 = .set a w v) ∧ (∃ f v, Instr.fwr 18 1 = .fwr f v) ∧
    (∃ a b, Instr.ldb 2 1 = .ldb a b) ∧ (∃ v, Instr.wr128 (-1) = .wr128 v) ∧
    ∃ a w, Instr.embed 12 12 = .embed a w :=
  ⟨⟨_, _, _, rfl⟩, ⟨_, _, rfl⟩, ⟨_, _, rfl⟩, ⟨_, rfl⟩, ⟨_, _, rfl⟩⟩

theorem witness_EmptyBufferCommandsFail : State.reset.len = 0 := by decide

/-- For R100, R101, R108, R109 and R43 on byte lists: a field that ends with the list, and one beside it. -/
theorem witness_list_field_clauses :
    (1 ≤ 12 ∧ 116 + 12 ≤ 8 * headerP1.length) ∧ (1 ≤ 20 ∧ 96 + 20 ≤ 8 * headerP1.length) ∧
    (96 + 20 ≤ 116 ∨ 116 + 12 ≤ 96) ∧
    (96 + 32 ≤ 8 * headerP1.length ∧ 96 ≤ 116 ∧ 116 + 12 ≤ 96 + 32) ∧
    (14 ≠ 15 ∧ lookup .h16 14 = some (96, 20) ∧ lookup .h16 15 = some (116, 12)) := by decide

theorem witness_MixedWidthAccessesAgree :
    2 < sealed3.len ∧ 16 ≤ (holding headerP1).len := by decide

theorem witness_EmbedStoresTheChecksum :
    1 ≤ 12 ∧ 12 ≤ 64 ∧ 12 + 12 ≤ 8 * sealed3.len ∧ (0 < 12 / 8 ∨ (12 + 12 - 1) / 8 < 0) := by decide

theorem witness_VerifyComparesStoredWithRecomputed :
    (12 + 12 ≤ 8 * sealed3.len ∧
      Bytes.extract sealed3.buf 12 12 = calc12 (Bytes.insert sealed3.buf 12 12 0)) ∧
    (12 + 12 ≤ 8 * (holding [0x01, 0xE0, 0x7F]).len ∧
      Bytes.extract (holding [0x01, 0xE0, 0x7F]).buf 12 12 ≠
        calc12 (Bytes.insert (holding [0x01, 0xE0, 0x7F]).buf 12 12 0)) := by decide

theorem witness_WordsAreTwelveBitSlices :
    1 < (8 * ([0x11, 0x22, 0x33] : List Byte).length + 11) / 12 ∧
    12 * 1 + 12 ≤ 8 * ([0x11, 0x22, 0x33] : List Byte).length ∧
    8 * ([0x11, 0x22, 0x33] : List Byte).length ≤ 24 := by decide

/-- `FF 0F` holds 4095, and `FF FF FF` holds 4095 * 4097. -/
theorem witness_ChecksumMissesTheseChanges :
    Bytes.toInt [0xFF, 0x0F] = Bytes.toInt [0xFF, 0x0F, 0x00] ∧
    (checkWords [0xAB, 0xCD, 0xEF]).Perm (checkWords [0xFC, 0xBE, 0xDA]) ∧
    0 < Bytes.toInt [0xFF, 0x0F] ∧
    Bytes.toInt [0xFF, 0xFF, 0xFF] = Bytes.toInt [0xFF, 0x0F] + 4095 * 4096 := by decide

theorem witness_TrailingZerosDoNotChangeVerify :
    sealed3.len ≤ 64 ∧ 64 ≤ sealed3.bufMax ∧ 1 ≤ 12 ∧ 12 ≤ 64 ∧ 12 + 12 ≤ 8 * sealed3.len := by decide

theorem witness_VerifyAfterEmbedSucceeds :
    12 ≤ 12 ∧ 12 ≤ 64 ∧ 12 + 12 ≤ 8 * sealed3.len := by decide

theorem witness_OtherWidthsComposeLiterally :
    (1 ≤ 8 ∧ 8 ≤ 64 ∧ 16 + 8 ≤ 8 * (holding [0x00, 0x00, 0x00]).len) ∧
    2 ^ 8 ≤ calc12 (Bytes.insert (holding [0x00, 0x00, 0x00]).buf 16 8 0) ∧
    calc12 (Bytes.insert (holding [0xFF, 0x0E, 0x00]).buf 12 9 0) < 2 ^ 9 ∧
    ∃ v, exec (.verify 12 12) sealed3 = .next v ∧ v.vok = true :=
  ⟨by decide, by decide, by decide, _, rfl, by decide⟩

/-- A bit at the end of the buffer or past it reads the same in two states of one length if the bytes do. -/
theorem readBit_past {s : State} {m : Nat} (h : 8 * s.len ≤ m) : s.readBit m = false := by
  have : ¬ m / 8 < s.len := by omega
  simp [State.readBit, State.readByte, this]

/-- One flipped bit outside the field, bit 0, and one inside it, bit 23. -/
theorem witness_SingleBitFlipIsDetected :
    (∃ t, exec (.verify 12 12) sealed3 = .next t ∧ t.err = .ok ∧ t.vok = true) ∧
    (∀ m, (holding [0x00, 0xE0, 0xFF]).readBit m = (sealed3.readBit m ^^ decide (m = 0))) ∧
    ∀ m, (holding [0x01, 0xE0, 0x7F]).readBit m = (sealed3.readBit m ^^ decide (m = 23)) := by
  refine ⟨⟨_, rfl, by decide, by decide⟩, fun m => ?_, fun m => ?_⟩ <;> by_cases h : m < 24
  · revert m; decide
  · rw [readBit_past (s := sealed3) (Nat.le_of_not_lt h),
      readBit_past (s := holding _) (Nat.le_of_not_lt h)]
    simp; omega
  · revert m; decide
  · rw [readBit_past (s := sealed3) (Nat.le_of_not_lt h),
      readBit_past (s := holding _) (Nat.le_of_not_lt h)]
    simp; omega

theorem witness_SingleByteChangeIsDetected :
    (∃ t, exec (.verify 12 12) sealed3 = .next t ∧ t.err = .ok ∧ t.vok = true) ∧
    (holding [0xFF, 0xE0, 0xFF]).len = sealed3.len ∧ 0 < sealed3.len ∧
    (8 * 0 + 8 ≤ 12 ∨ 12 + 12 ≤ 8 * 0) ∧
    (holding [0xFF, 0xE0, 0xFF]).readByte 0 ≠ sealed3.readByte 0 ∧
    ∀ k, k ≠ 0 → (holding [0xFF, 0xE0, 0xFF]).readByte k = sealed3.readByte k := by
  refine ⟨⟨_, rfl, by decide, by decide⟩, by decide, by decide, by decide, by decide, ?_⟩
  intro k hk
  match k with
  | 0 => exact absurd rfl hk
  | 1 | 2 => decide
  | k + 3 => rfl

end Sys2Proof.Tests
end

/-! # Scope: what a step runs, and what a command's outcome depends on (spec/00_scope.md) -/

namespace Sys2Proof.Machine

/-! ## The step of a command word -/

/-- A command word that decodes is met as its command, with the word taken from the host (R62). -/
theorem State.present_of_decode {s : State} {c : CmdWord} {rest : List Input} {i : Instr}
    (hp : s.pending = .command c :: rest) (hd : decode c = .ok i) :
    s.present = .command i { s with pending := rest } := by
  simp only [State.present, hp, hd]

/-- Settles O7: the step runs the command that is met, and `State.present_of_decode` says which that is. -/
theorem stepRunsTheDecodedCommand : Obligations.StepRunsTheDecodedCommand := by
  intro s c rest i hp hd
  simp only [step, State.present_of_decode hp hd]

/-! ## The inputs of a command

`SameData` is all that a command may read but for `STATUS` (90_conflicts.md C9). Two states that agree on it get
the same error from every check, and end every effect with the same answer and in agreement again. -/

/-- Two states agree on `BUF` and `LEN` (the list view holds both), on `LAYOUT` and on `BUF_MAX`. -/
structure SameData (s s' : State) : Prop where
  buf : s.buf = s'.buf
  layout : s.layout = s'.layout
  bufMax : s.bufMax = s'.bufMax

/-- The ends `t` and `t'` of a command run on two states, which had given the responses `rs` and `rs'`: both
answer `r`, latch the same code and agree on the data. -/
structure AnsweredAlike (rs rs' : List Response) (t t' : State) (r : Response) : Prop where
  responses_left : t.responses = rs ++ [r]
  responses_right : t'.responses = rs' ++ [r]
  err : t.err = t'.err
  data : SameData t t'

/-- Whether a number names a control register depends on no state (R184). -/
theorem State.checkCsr_eq (s s' : State) (c : Nat) : s.checkCsr c = s'.checkCsr c := by
  simp only [State.checkCsr, State.csr_isNone]

namespace SameData

variable {s s' : State} (h : SameData s s')
include h

theorem len : s.len = s'.len := by
  rw [← s.buf_length, ← s'.buf_length, h.buf]

theorem readByte (a : Nat) : s.readByte a = s'.readByte a := by
  rw [s.readByte_eq, s'.readByte_eq, h.buf]

/-! What the commands read agrees. -/

theorem checkBits (a w : Nat) : s.checkBits a w = s'.checkBits a w := by
  simp only [State.checkBits, h.len]

theorem checkByte (a : Nat) : s.checkByte a = s'.checkByte a := by
  simp only [State.checkByte, h.len]

theorem checkLength (n : Nat) : s.checkLength n = s'.checkLength n := by
  simp only [State.checkLength, h.bufMax]

theorem checkHeader : s.checkHeader = s'.checkHeader := by
  simp only [State.checkHeader, h.len]

theorem checkField (a w : Nat) : s.checkField a w = s'.checkField a w := by
  simp only [State.checkField, h.checkBits]

theorem checkNamed (id : Nat) : s.checkNamed id = s'.checkNamed id := by
  simp only [State.checkNamed, h.layout, h.checkBits]

theorem namedField (id : Nat) : s.namedField id = s'.namedField id := by
  simp only [State.namedField, h.layout]

/-- `STATUS`, number 0, is the one control register that is not part of the data (R25). -/
theorem csr {c : Nat} (hc : c ≠ 0) : s.csr c = s'.csr c := by
  match c with
  | 0 => exact absurd rfl hc
  | 1 => simp only [State.csr, h.len]
  | 2 => simp only [State.csr, h.layout]
  | 3 => simp only [State.csr, h.bufMax]
  | _ + 4 => rfl

/-- A command's check finds the same error. -/
theorem checkOf_eq (i : Instr) : checkOf i s = checkOf i s' := by
  cases i with
  | setlen n => exact h.checkLength n
  | ldb a _ | rdb a => exact h.checkByte a
  | setlayout _ | clrerr | calc12 => rfl
  | rdcsr c => exact s.checkCsr_eq s' c
  | extract a w | set a w _ | embed a w | verify a w => exact h.checkField a w
  | frd f | fwr f _ => exact h.checkNamed f
  | rd128 | wr128 _ => exact h.checkHeader

/-! What the commands write keeps the agreement. -/

theorem setBuf (B : List Byte) : SameData (s.setBuf B) (s'.setBuf B) where
  buf := by simp only [State.buf_setBuf]
  layout := h.layout
  bufMax := h.bufMax

theorem setLayout (l : Layout) : SameData (s.setLayout l) (s'.setLayout l) := ⟨h.buf, rfl, h.bufMax⟩

theorem clearSerr : SameData s.clearSerr s'.clearSerr := ⟨h.buf, h.layout, h.bufMax⟩

theorem setVok (v : Bool) : SameData (s.setVok v) (s'.setVok v) := ⟨h.buf, h.layout, h.bufMax⟩

/-! The three ends of a command answer alike. -/

theorem raiseErr (e : Err) :
    AnsweredAlike s.responses s'.responses (s.raiseErr e) (s'.raiseErr e) ⟨e, 0⟩ :=
  ⟨rfl, rfl, rfl, h.buf, h.layout, h.bufMax⟩

theorem finish : AnsweredAlike s.responses s'.responses s.finish s'.finish ⟨.ok, 0⟩ :=
  ⟨rfl, rfl, rfl, h.buf, h.layout, h.bufMax⟩

theorem finishWith (v : Wide) :
    AnsweredAlike s.responses s'.responses (s.finishWith v) (s'.finishWith v) ⟨.ok, v⟩ :=
  ⟨rfl, rfl, rfl, h.buf, h.layout, h.bufMax⟩

/-- A command's effect: what it computes, it computes from the data, unless it reads `STATUS`. -/
theorem effectOf_alike {i : Instr} (hi : i ≠ .rdcsr 0) :
    ∃ r, AnsweredAlike s.responses s'.responses (effectOf i s) (effectOf i s') r := by
  cases i with
  | setlen _ | ldb _ _ | set _ _ _ | fwr _ _ | wr128 _ =>
    simp only [effectOf, h.buf, h.namedField]
    exact ⟨_, (h.setBuf _).finish⟩
  | rdb _ | extract _ _ | frd _ | rd128 | calc12 =>
    simp only [effectOf, h.buf, h.namedField]
    exact ⟨_, h.finishWith _⟩
  | setlayout l => exact ⟨_, (h.setLayout ((Layout.ofNumber l).getD .h16)).finish⟩
  | clrerr => exact ⟨_, h.clearSerr.finish⟩
  | rdcsr c =>
    have hc : c ≠ 0 := fun h0 => hi (h0 ▸ rfl)
    simp only [effectOf, h.csr hc]
    exact ⟨_, h.finishWith _⟩
  | embed _ _ =>
    simp only [effectOf, h.buf]
    exact ⟨_, (h.setBuf _).finishWith _⟩
  | verify a w =>
    simp only [effectOf, h.buf]
    exact ⟨_, (h.setVok (verifyBytes s'.buf a w)).finishWith _⟩

/-- A command: the same check, then the same error or the same effect. -/
theorem exec_alike {i : Instr} (hi : i ≠ .rdcsr 0) :
    ∃ t t' r, exec i s = .next t ∧ exec i s' = .next t' ∧
      AnsweredAlike s.responses s'.responses t t' r := by
  have hcheck := h.checkOf_eq i
  cases hc : checkOf i s with
  | some e => exact ⟨_, _, _, exec_of_some hc, exec_of_some (hcheck ▸ hc), h.raiseErr e⟩
  | none =>
    obtain ⟨r, hr⟩ := h.effectOf_alike hi
    exact ⟨_, _, r, exec_of_none hc, exec_of_none (hcheck ▸ hc), hr⟩

end SameData

/-- Settles O17, by `SameData.exec_alike`: equal bytes make equal list views, so the hypotheses are `SameData`. -/
theorem outcomeDependsOnBufferAndLayoutOnly : Obligations.OutcomeDependsOnBufferAndLayoutOnly := by
  intro i s s' hi _ hbytes hlayout hmax
  obtain ⟨t, t', r, ht, ht', hr⟩ := SameData.exec_alike ⟨State.buf_ext hbytes, hlayout, hmax⟩ hi
  exact ⟨t, t', r, ht, ht', hr.responses_left, hr.responses_right, hr.err, hr.data.len,
    hr.data.readByte, hr.data.layout, hr.data.bufMax⟩

end Sys2Proof.Machine

/-! # State: reset, the invariants, and which commands write what (spec/10_state.md) -/

namespace Sys2Proof.Machine

/-! ## Reset (R33, R210) -/

@[simp] theorem State.resetEvent_buf (s : State) : s.resetEvent.buf = [] := rfl

@[simp] theorem State.resetEvent_statusValue (s : State) : s.resetEvent.statusValue = 0 := rfl

/-- The reset event is taken from the host and leaves no command to run (R210). -/
theorem step_of_reset {s : State} {rest : List Input} (hp : s.pending = .reset :: rest) :
    step s = .next (State.resetEvent { s with pending := rest }) := by
  simp only [step, State.present, hp, execResetEvent]

/-- Settles O8: both halves read off the fields of the reset state, the second at the end of `step_of_reset`. -/
theorem resetEmptiesBufferAndClearsRegisters : Obligations.ResetEmptiesBufferAndClearsRegisters := by
  refine ⟨⟨rfl, rfl, rfl, rfl, rfl, rfl, rfl⟩, fun s rest hp => ⟨_, step_of_reset hp, ?_⟩⟩
  simp

/-! ## What the effect of a command leaves as it was (section 1, R22 to R25)

One rule for each part of the state: the effect keeps it, unless the command is one that writes it. -/

@[simp] theorem embedBytes_length (B : List Byte) (off w : Nat) : (embedBytes B off w).length = B.length := by
  simp [embedBytes]

/-- A write of bytes inside the buffer keeps `LEN`. -/
theorem State.memWrite_buf_length (s : State) {a n : Nat} (v : Nat) (h : a + n ≤ s.len) :
    (Bytes.memWrite s.buf a n v).length = s.len := by
  rw [Bytes.memWrite_length v (by rwa [s.buf_length]), s.buf_length]

section Frame

variable {i : Instr} {s : State}

/-- An effect is reached only where no check found an error, and it latches code 0 (R186). -/
@[simp] theorem effectOf_err (i : Instr) (s : State) : (effectOf i s).err = .ok := by
  cases i <;> rfl

@[simp] theorem effectOf_bufMax (i : Instr) (s : State) : (effectOf i s).bufMax = s.bufMax := by
  cases i <;> rfl

@[simp] theorem effectOf_pending (i : Instr) (s : State) : (effectOf i s).pending = s.pending := by
  cases i <;> rfl

theorem effectOf_vok (hi : ¬ ∃ a w, i = .verify a w) : (effectOf i s).vok = s.vok := by
  cases i with
  | verify a w => exact absurd ⟨a, w, rfl⟩ hi
  | _ => rfl

theorem effectOf_serr (hi : i ≠ .clrerr) : (effectOf i s).serr = s.serr := by
  cases i with
  | clrerr => exact absurd rfl hi
  | _ => rfl

theorem effectOf_layout (hi : ¬ ∃ l, i = .setlayout l) : (effectOf i s).layout = s.layout := by
  cases i with
  | setlayout l => exact absurd ⟨l, rfl⟩ hi
  | _ => rfl

theorem effectOf_res (hi : ¬ producesValue i = true) : (effectOf i s).res = s.res := by
  cases i with
  | setlen _ | ldb _ _ | setlayout _ | clrerr | set _ _ _ | fwr _ _ | wr128 _ => rfl
  | _ => exact absurd rfl hi

theorem effectOf_readByte {x : Nat}
    (hi : ¬ ((∃ n, i = .setlen n) ∨ (∃ k b, i = .ldb k b) ∨ (∃ k w v, i = .set k w v) ∨
      (∃ f v, i = .fwr f v) ∨ (∃ v, i = .wr128 v) ∨ (∃ k w, i = .embed k w))) :
    (effectOf i s).readByte x = s.readByte x := by
  cases i with
  | setlen _ | ldb _ _ | set _ _ _ | fwr _ _ | wr128 _ | embed _ _ => simp at hi
  | _ => rfl

/-- Only SETLEN changes the length: LDB and WR128 have checked that the bytes they write lie in the buffer, and
the field writes keep the length of any byte list. -/
theorem effectOf_len (hc : checkOf i s = none) (hi : ¬ ∃ n, i = .setlen n) :
    (effectOf i s).len = s.len := by
  cases i with
  | setlen n => exact absurd ⟨n, rfl⟩ hi
  | ldb a b => exact s.memWrite_buf_length _ ((s.checkByte_eq_none a).mp hc)
  | wr128 v => exact s.memWrite_buf_length _ ((Nat.zero_add 16).trans_le (s.checkHeader_eq_none.mp hc))
  | set a w v => exact (Bytes.insert_length ..).trans s.buf_length
  | fwr f v => exact (Bytes.insert_length ..).trans s.buf_length
  | embed a w => exact (embedBytes_length ..).trans s.buf_length
  | _ => rfl

end Frame

/-- Settles O15: an error writes `STATUS.ERR` and `STATUS.SERR` only, and for an effect each clause is the
contrapositive of the rule for that part of the state. -/
theorem stateIsWrittenOnlyByItsCommands : Obligations.StateIsWrittenOnlyByItsCommands := by
  intro i s t h
  obtain ⟨e, -, rfl⟩ | ⟨hc, rfl⟩ := exec_cases h
  · simp
  · refine ⟨fun hv => ⟨effectOf_err i s, not_imp_comm.mp effectOf_vok hv⟩,
      not_imp_comm.mp effectOf_layout, not_imp_comm.mp (effectOf_len hc),
      not_imp_comm.mp effectOf_res, fun _ => not_imp_comm.mp effectOf_readByte, ?_,
      effectOf_bufMax i s, effectOf_pending i s⟩
    intro hset hclear
    by_contra hi
    simp [effectOf_serr hi, hset] at hclear

/-! ## `RES` is never an input (R23) -/

/-- A check that guards one error other than `ok` never finds `ok`. -/
theorem guard_ne_ok {p : Prop} [Decidable p] {e : Err} (he : e ≠ .ok) :
    (if p then some e else none) ≠ some .ok := by
  split <;> simp [he]

theorem State.checkBits_ne_ok (s : State) (a w : Nat) : s.checkBits a w ≠ some .ok :=
  guard_ne_ok (by decide)

theorem State.checkField_ne_ok (s : State) (a w : Nat) : s.checkField a w ≠ some .ok := by
  by_cases hw : w = 0 ∨ 64 < w
  · simp [s.checkField_width a hw]
  · rw [s.checkField_range a (by omega) (by omega)]
    exact s.checkBits_ne_ok a w

theorem State.checkNamed_ne_ok (s : State) (id : Nat) : s.checkNamed id ≠ some .ok := by
  cases hl : lookup s.layout id with
  | none => simp [s.checkNamed_none hl]
  | some place =>
    rw [s.checkNamed_some hl]
    exact s.checkBits_ne_ok _ _

/-- What a check finds is an error: a command fails with a code other than 0. -/
theorem checkOf_ne_ok (i : Instr) (s : State) : checkOf i s ≠ some .ok := by
  cases i with
  | setlen _ | ldb _ _ | rdb _ | setlayout _ | rdcsr _ | rd128 | wr128 _ =>
    exact guard_ne_ok (by decide)
  | clrerr | calc12 => simp [checkOf]
  | extract a w | set a w _ | embed a w | verify a w => exact s.checkField_ne_ok a w
  | frd f | fwr f _ => exact s.checkNamed_ne_ok f

/-- An effect on a state with another value in `RES`: the same end, but for `RES` where it is not written. -/
theorem effectOf_setRes (i : Instr) (s : State) (x : Wide) :
    effectOf i (s.setRes x) =
      (effectOf i s).setRes (if producesValue i = true then (effectOf i s).res else x) := by
  cases i <;> rfl

/-- Settles O16: no check reads `RES`, and neither an error nor an effect uses what it held. -/
theorem resIsNeverAnInput : Obligations.ResIsNeverAnInput := by
  intro i s x
  have hcheck : checkOf i (s.setRes x) = checkOf i s := SameData.checkOf_eq ⟨rfl, rfl, rfl⟩ i
  cases hc : checkOf i s with
  | some e =>
    have he : e ≠ .ok := fun h => checkOf_ne_ok i s (h ▸ hc)
    refine ⟨s.raiseErr e, exec_of_some hc, ?_⟩
    simp only [State.raiseErr_err, he, false_and, if_false]
    exact exec_of_some (hcheck.trans hc)
  | none =>
    refine ⟨effectOf i s, exec_of_none hc, ?_⟩
    have hend := exec_of_none (hcheck.trans hc)
    rw [effectOf_setRes] at hend
    simpa [State.setRes] using hend

/-! ## The invariants (R34) -/

/-- The reset event meets the invariants with every capacity that R5 admits. -/
theorem State.resetEvent_inv {s : State} (hlow : Config.bufMaxLow ≤ s.bufMax)
    (hhigh : s.bufMax ≤ Config.bufMaxHigh) : s.resetEvent.Inv where
  canonical := State.reset_mem_wf
  inBuffer := by simp
  capacity := Nat.zero_le _
  capacityLow := hlow
  capacityHigh := hhigh
  sticky hne := absurd rfl hne

/-- Settles O9: the reset state is its own reset event, and its capacity of 64 is one that R5 admits. -/
theorem resetStateMeetsInvariant : Obligations.ResetStateMeetsInvariant :=
  State.resetEvent_inv (s := .reset) (by decide) (by decide)

namespace State.Inv

variable {i : Instr} {s t : State} (h : s.Inv)
include h

/-- A state with the buffer of `s` meets the invariants if its sticky flag does. -/
theorem of_frame (hmem : t.mem = s.mem) (hlen : t.len = s.len) (hmax : t.bufMax = s.bufMax)
    (hsticky : t.err ≠ .ok → t.serr = true) : t.Inv where
  canonical := hmem ▸ h.canonical
  inBuffer := hmem ▸ hlen ▸ h.inBuffer
  capacity := hlen ▸ hmax ▸ h.capacity
  capacityLow := hmax ▸ h.capacityLow
  capacityHigh := hmax ▸ h.capacityHigh
  sticky := hsticky

/-- A state with a newly stored buffer that fits meets the invariants if its sticky flag does. -/
theorem of_stored {B : List Byte} (hmem : t.mem = Memory.ofBytes B) (hlen : t.len = B.length)
    (hmax : t.bufMax = s.bufMax) (hfits : t.len ≤ s.bufMax)
    (hsticky : t.err ≠ .ok → t.serr = true) : t.Inv where
  canonical := hmem ▸ Memory.wf_ofBytes B
  inBuffer _ hcell := hlen ▸ Memory.lt_of_mem_ofBytes (hmem ▸ hcell)
  capacity := hmax ▸ hfits
  capacityLow := hmax ▸ h.capacityLow
  capacityHigh := hmax ▸ h.capacityHigh
  sticky := hsticky

theorem raiseErr (e : Err) : (s.raiseErr e).Inv := h.of_frame rfl rfl rfl fun _ => rfl

theorem withPending (rest : List Input) : State.Inv { s with pending := rest } :=
  h.of_frame rfl rfl rfl h.sticky

/-- The buffer fits after every effect: SETLEN has checked its length, and no other command changes `LEN`. -/
theorem effectOf_fits (hc : checkOf i s = none) : (effectOf i s).len ≤ s.bufMax := by
  by_cases hi : ∃ n, i = .setlen n
  · obtain ⟨n, rfl⟩ := hi
    exact (Bytes.resize_length ..).trans_le ((s.checkLength_eq_none n).mp hc)
  · exact (effectOf_len hc hi).trans_le h.capacity

/-- An effect keeps the invariants: it stores a buffer that fits or none, and it latches code 0. -/
theorem effectOf (hc : checkOf i s = none) : (effectOf i s).Inv := by
  have hfits := h.effectOf_fits hc
  have hsticky (hne : (Machine.effectOf i s).err ≠ .ok) : (Machine.effectOf i s).serr = true :=
    absurd (effectOf_err i s) hne
  cases i with
  | setlen _ | ldb _ _ | set _ _ _ | fwr _ _ | wr128 _ | embed _ _ =>
    exact h.of_stored rfl rfl rfl hfits hsticky
  | _ => exact h.of_frame rfl rfl rfl hsticky

theorem exec (ht : exec i s = .next t) : t.Inv := by
  obtain ⟨e, -, rfl⟩ | ⟨hc, rfl⟩ := exec_cases ht
  · exact h.raiseErr e
  · exact h.effectOf hc

end State.Inv

/-- Settles O10, by the four things a step can be (`step_cases`): each keeps the invariants. -/
theorem everyStepKeepsInvariant : Obligations.EveryStepKeepsInvariant := by
  intro s t h ht
  obtain ⟨-, rfl⟩ | ⟨rest, -, rfl⟩ | ⟨_, rest, _, -, -, rfl⟩ | ⟨_, rest, _, -, -, hexec⟩ := step_cases ht
  · exact h
  · exact State.resetEvent_inv h.capacityLow h.capacityHigh
  · exact (h.withPending rest).raiseErr .op
  · exact (h.withPending rest).exec hexec

end Sys2Proof.Machine

/-! # Memory: accesses of one buffer at several widths, and writes done twice (spec/20_memory.md) -/

namespace Sys2Proof.Machine

/-! ## Overlapping accesses on byte lists (R43) -/

namespace Bytes

/-- A field inside another field is a slice of the outer field's value. -/
theorem extract_of_extract {B : List Byte} {s w s' w' : Nat} (hlow : s ≤ s') (hhigh : s' + w' ≤ s + w) :
    extract B s' w' = extract B s w / 2 ^ (s' - s) % 2 ^ w' := by
  apply Nat.eq_of_testBit_eq
  intro n
  rw [Nat.testBit_mod_two_pow, Nat.testBit_div_two_pow, testBit_extract, testBit_extract]
  by_cases hn : n < w'
  · simp [hn, show n + (s' - s) < w by omega, show s + (n + (s' - s)) = s' + n by omega]
  · simp [hn]

/-- A byte access is the field of its bits. -/
theorem memRead_eq_extract {B : List Byte} {addr n : Nat} (h : addr + n ≤ B.length) :
    memRead B addr n = extract B (8 * addr) (8 * n) := by
  have hbelow : toInt (B.take addr) < 2 ^ (8 * addr) := toInt_take_lt (by omega)
  rw [extract, trunc, toInt_bytes h, Nat.add_mul_div_left _ _ (Nat.two_pow_pos _),
    Nat.div_eq_of_lt hbelow, Nat.zero_add, Nat.add_mul_mod_self_left, Nat.mod_eq_of_lt (memRead_lt h)]

/-! ## Writing the same place twice on byte lists (R47) -/

/-- Of two writes to one field the second counts. -/
theorem insert_insert {B : List Byte} {s w : Nat} (u v : Nat) (h : s + w ≤ 8 * B.length) :
    insert (insert B s w u) s w v = insert B s w v := by
  apply toInt_injective
  · simp
  · apply Nat.eq_of_testBit_eq
    intro n
    rw [testBit_insert v (by simpa using h), testBit_insert u h, testBit_insert v h]
    split <;> rfl

/-- Of two writes to the same bytes the second counts. -/
theorem memWrite_memWrite {B : List Byte} {addr n : Nat} (u v : Nat) (h : addr + n ≤ B.length) :
    memWrite (memWrite B addr n u) addr n v = memWrite B addr n v := by
  have htake : (B.take addr).length = addr := List.length_take_of_le (by omega)
  have hput : (B.take addr ++ ofInt n u).length = addr + n := by simp [htake]
  simp only [memWrite, List.drop_left' hput]
  rw [List.append_assoc (B.take addr), List.take_left' htake]

end Bytes

/-- A second EMBED at one place zeroes what the first stored, and so finds the checksum that the first
found. -/
theorem embedBytes_embedBytes {B : List Byte} {off w : Nat} (h : off + w ≤ 8 * B.length) :
    embedBytes (embedBytes B off w) off w = embedBytes B off w := by
  have hfits : off + w ≤ 8 * (Bytes.insert B off w 0).length := by rwa [Bytes.insert_length]
  have hzeroed : Bytes.insert (embedBytes B off w) off w 0 = Bytes.insert B off w 0 :=
    (Bytes.insert_insert _ 0 hfits).trans (Bytes.insert_insert 0 0 h)
  rw [embedBytes.eq_def (embedBytes B off w), checksumZeroed, hzeroed]
  rfl

/-! ## Where a checked access stands -/

theorem State.checkField_eq_none {s : State} {a w : Nat} :
    s.checkField a w = none ↔ 1 ≤ w ∧ w ≤ 64 ∧ a + w ≤ 8 * s.len := by
  by_cases hw : w = 0 ∨ 64 < w
  · simp only [s.checkField_width a hw, reduceCtorEq, false_iff]
    omega
  · rw [s.checkField_range a (by omega) (by omega), s.checkBits_eq_none]
    omega

/-- A named field whose check finds no error lies in the buffer. -/
theorem State.namedField_le {s : State} {id : Nat} (h : s.checkNamed id = none) :
    (s.namedField id).1 + (s.namedField id).2 ≤ 8 * s.len := by
  cases hl : lookup s.layout id with
  | none => simp [s.checkNamed_none hl] at h
  | some place =>
    rw [s.namedField_some hl]
    rwa [s.checkNamed_some hl, s.checkBits_eq_none] at h

/-! ## Reads of different widths (R43) -/

theorem zext128_toNat {v : Nat} (h : v < 2 ^ 128) : (zext128 v).toNat = v := by
  rw [zext128, BitVec.toNat_ofNat, Nat.mod_eq_of_lt h]

/-- An access of at most 16 bytes, in a register of 128 bits, is the field of its bits. -/
theorem zext128_memRead_toNat {s : State} {addr n : Nat} (h : addr + n ≤ s.len) (hn : n ≤ 16) :
    (zext128 (Bytes.memRead s.buf addr n)).toNat = Bytes.extract s.buf (8 * addr) (8 * n) := by
  rw [Bytes.memRead_eq_extract (by rwa [s.buf_length])]
  exact zext128_toNat ((Bytes.extract_lt ..).trans_le (Nat.pow_le_pow_right (by decide) (by omega)))

/-- Settles O45: a field inside a field is a slice of it, and RDB and RD128 read the field of the bits of their
bytes. -/
theorem mixedWidthAccessesAgree : Obligations.MixedWidthAccessesAgree := by
  refine ⟨fun B s w s' w' _ hlow hhigh => Bytes.extract_of_extract hlow hhigh, ?_, ?_⟩
  · intro s a ha
    exact ⟨_, exec_of_none ((s.checkByte_eq_none a).mpr ha), zext128_memRead_toNat ha (by decide)⟩
  · intro s hlen
    exact ⟨_, exec_of_none (s.checkHeader_eq_none.mpr hlen),
      zext128_memRead_toNat ((Nat.zero_add 16).trans_le hlen) le_rfl⟩

/-! ## Writes done twice (R47) -/

/-- The five commands that R47 names. -/
def IsRepeatableWrite (i : Instr) : Prop :=
  (∃ a w v, i = .set a w v) ∨ (∃ f v, i = .fwr f v) ∨ (∃ a b, i = .ldb a b) ∨
    (∃ v, i = .wr128 v) ∨ (∃ a w, i = .embed a w)

/-- No check reads the bytes of the buffer. -/
theorem checkOf_withMem (i : Instr) (s : State) (m : Memory) :
    checkOf i { s with mem := m } = checkOf i s := by
  cases i <;> rfl

/-- What a check finds depends on `LEN`, `LAYOUT` and `BUF_MAX` alone. -/
theorem checkOf_congr {s t : State} (i : Instr) (hlen : t.len = s.len) (hlayout : t.layout = s.layout)
    (hmax : t.bufMax = s.bufMax) : checkOf i t = checkOf i s := by
  have hsame : SameData { t with mem := s.mem } s := ⟨by simp only [State.buf, hlen], hlayout, hmax⟩
  exact (checkOf_withMem i t s.mem).symm.trans (hsame.checkOf_eq i)

namespace IsRepeatableWrite

variable {i : Instr} {s : State} (hi : IsRepeatableWrite i)
include hi

theorem not_setlen : ¬ ∃ n, i = .setlen n := by
  rintro ⟨n, rfl⟩
  simp [IsRepeatableWrite] at hi

theorem not_setlayout : ¬ ∃ l, i = .setlayout l := by
  rintro ⟨l, rfl⟩
  simp [IsRepeatableWrite] at hi

/-- The effect on its own result stores the buffer that is there. -/
theorem effectOf_effectOf_buf (hc : checkOf i s = none) :
    (effectOf i (effectOf i s)).buf = (effectOf i s).buf := by
  obtain ⟨a, w, v, rfl⟩ | ⟨f, v, rfl⟩ | ⟨a, b, rfl⟩ | ⟨v, rfl⟩ | ⟨a, w, rfl⟩ := hi <;>
    simp only [effectOf, State.finish_buf, State.finishWith_buf, State.buf_setBuf]
  · obtain ⟨-, -, hin⟩ := State.checkField_eq_none.mp hc
    exact Bytes.insert_insert _ _ (by rwa [s.buf_length])
  · exact Bytes.insert_insert _ _ (s.buf_length ▸ State.namedField_le hc)
  · exact Bytes.memWrite_memWrite _ _ (s.buf_length ▸ (s.checkByte_eq_none a).mp hc)
  · exact Bytes.memWrite_memWrite _ _ (s.buf_length ▸ s.checkHeader_eq_none.mp hc)
  · obtain ⟨-, -, hin⟩ := State.checkField_eq_none.mp hc
    exact embedBytes_embedBytes (by rwa [s.buf_length])

/-- Where the first run finds an error the second finds it again, and where it stores bytes the second stores
the same ones. -/
theorem exec_exec : ∃ t u, exec i s = .next t ∧ exec i t = .next u ∧ SameData u t := by
  cases hc : checkOf i s with
  | some e =>
    have hsame : SameData (s.raiseErr e) s := ⟨rfl, rfl, rfl⟩
    exact ⟨_, _, exec_of_some hc, exec_of_some ((hsame.checkOf_eq i).trans hc), rfl, rfl, rfl⟩
  | none =>
    have hlayout (r : State) : (effectOf i r).layout = r.layout := effectOf_layout hi.not_setlayout
    have hagain : checkOf i (effectOf i s) = none :=
      (checkOf_congr i (effectOf_len hc hi.not_setlen) (hlayout s) (effectOf_bufMax i s)).trans hc
    exact ⟨_, _, exec_of_none hc, exec_of_none hagain, hi.effectOf_effectOf_buf hc, hlayout _,
      effectOf_bufMax i _⟩

end IsRepeatableWrite

/-- Settles O39, by `IsRepeatableWrite.exec_exec`: the two ends agree on all data, the failing ones too. -/
theorem writesAreIdempotent : Obligations.WritesAreIdempotent := by
  intro s i hi
  obtain ⟨t, u, ht, hu, hsame⟩ := IsRepeatableWrite.exec_exec (s := s) hi
  exact ⟨t, u, ht, hu, hsame.len, hsame.readByte⟩

/-! ## `STATUS` read twice (R47) -/

theorem Err.code_lt (e : Err) : e.code < 2 ^ 3 := by
  cases e <;> decide

/-- The bits of `STATUS`: the code in bits 0 to 2, then `SERR`, then `VOK` (10_state.md R24). -/
theorem State.testBit_statusValue (s : State) (n : Nat) : s.statusValue.testBit n =
    if n < 3 then s.err.code.testBit n else if n = 3 then s.serr else decide (n = 4) && s.vok := by
  have hserr : s.serr.toNat < 2 ^ 1 := s.serr.toNat_lt
  have hvalue : s.statusValue = 2 ^ 3 * (2 ^ 1 * s.vok.toNat + s.serr.toNat) + s.err.code := by
    rw [State.statusValue]; ring
  rw [hvalue, Nat.testBit_two_pow_mul_add _ s.err.code_lt, Nat.testBit_two_pow_mul_add _ hserr,
    Nat.testBit_bool_toNat, Nat.testBit_bool_toNat]
  rcases lt_trichotomy n 3 with hn | rfl | hn
  · simp [hn]
  · simp
  · simp [show ¬ n < 3 by omega, show n ≠ 3 by omega, show ¬ n - 3 < 1 by omega,
      show n - 3 - 1 = 0 ↔ n = 4 by omega]

/-- A bit that a read of `STATUS` puts in `RES`. -/
theorem State.getLsbD_zext128_statusValue (s : State) {n : Nat} (h : n < 128) :
    (zext128 s.statusValue).getLsbD n = s.statusValue.testBit n := by
  rw [zext128, BitVec.getLsbD_ofNat, decide_eq_true h, Bool.true_and]

/-- A read of `STATUS` produces it and latches code 0 (42_buffer_control.md R165). -/
theorem exec_rdcsr_status (s : State) :
    exec (.rdcsr 0) s = .next (s.finishWith (zext128 s.statusValue)) :=
  exec_of_none rfl

/-- Settles O25: the second read sees the code 0 that the first latched, and the flags that the first kept. -/
theorem secondStatusReadShowsNoError : Obligations.SecondStatusReadShowsNoError := by
  intro s
  refine ⟨_, _, exec_rdcsr_status s, exec_rdcsr_status _, ?_⟩
  simp only [State.finishWith_res, State.getLsbD_zext128_statusValue, State.testBit_statusValue, Nat.reduceLT]
  simp [Err.code]

end Sys2Proof.Machine

/-! # Encoding: the command word, its fields and its bytes (spec/30_encoding.md R60 to R66) -/

namespace Sys2Proof

/-! ## The fields of an assembled word -/

section Fields

variable (i : Instr)

@[simp] theorem opField_encode : opField (encode i) = i.opcode.code := opField_assemble ..

@[simp] theorem wField_encode : wField (encode i) = BitVec.ofNat 8 i.wOperand := wField_assemble ..

@[simp] theorem aField_encode : aField (encode i) = BitVec.ofNat 32 i.aOperand := aField_assemble ..

@[simp] theorem dField_encode : dField (encode i) = i.dOperand := dField_assemble ..

/-- A term is well formed exactly when its operands fit the fields `a` and `w` (R60). -/
theorem wellFormed_iff : WellFormed i ↔ i.aOperand < 2 ^ 32 ∧ i.wOperand < 2 ^ 8 := by
  cases i <;> simp [WellFormed, Instr.wellFormed, Instr.aOperand, Instr.wOperand]

end Fields

section WellFormedFields

variable {i : Instr} (h : WellFormed i)
include h

theorem toNat_aField_encode : (aField (encode i)).toNat = i.aOperand := by
  rw [aField_encode, BitVec.toNat_ofNat, Nat.mod_eq_of_lt ((wellFormed_iff i).mp h).1]

theorem toNat_wField_encode : (wField (encode i)).toNat = i.wOperand := by
  rw [wField_encode, BitVec.toNat_ofNat, Nat.mod_eq_of_lt ((wellFormed_iff i).mp h).2]

/-- The operands read back from an assembled word are the ones it was assembled from. -/
theorem operands_encode : i.opcode.operands (encode i) = i := by
  have ha := toNat_aField_encode h
  have hw := toNat_wField_encode h
  cases i with
  | clrerr | rd128 | calc12 => rfl
  | setlen _ | rdb _ | setlayout _ | rdcsr _ | frd _ => exact congrArg _ ha
  | extract _ _ | embed _ _ | verify _ _ => exact congrArg₂ _ ha hw
  | ldb _ _ | fwr _ _ | set _ _ _ | wr128 _ =>
    simp only [Instr.opcode, Opcode.operands, ha, hw, dField_encode]
    simp [Instr.aOperand, Instr.wOperand, Instr.dOperand, BitVec.extractLsb'_setWidth_of_le]

end WellFormedFields

/-! ## Decoding, and what it reads -/

@[simp] theorem Opcode.opcode_operands (o : Opcode) (c : CmdWord) : (o.operands c).opcode = o := by
  cases o <;> rfl

/-- A word decodes to the command that has its opcode and the operands read from it, and to no other (R62). -/
theorem decode_eq_ok_iff {c : CmdWord} {i : Instr} :
    decode c = .ok i ↔ i.opcode.code = opField c ∧ i.opcode.operands c = i := by
  constructor
  · intro h
    cases ho : Opcode.ofCode (opField c) with
    | none => simp [decode, ho] at h
    | some o =>
      obtain rfl : o.operands c = i := by simpa [decode, ho] using h
      simp [Opcode.code_of_ofCode ho]
  · rintro ⟨hcode, hoperands⟩
    simp [decode, ← hcode, hoperands]

theorem decode_encode {i : Instr} (h : WellFormed i) : decode (encode i) = .ok i :=
  decode_eq_ok_iff.mpr ⟨(opField_encode i).symm, operands_encode h⟩

/-- The operands of a word fit the fields that they were read from. -/
theorem Opcode.wellFormed_operands (o : Opcode) (c : CmdWord) : WellFormed (o.operands c) := by
  have ha := (aField c).isLt
  have hw := (wField c).isLt
  rw [wellFormed_iff]
  cases o <;> simp [Opcode.operands, Instr.aOperand, Instr.wOperand, ha, hw]

/-! ## The 22 bytes of a word -/

/-- The word of 22 bytes is the word whose bytes they are. -/
theorem wordOfBytes_ofInt (c : CmdWord) : wordOfBytes (Machine.Bytes.ofInt 22 c.toNat) = c := by
  rw [wordOfBytes, Machine.Bytes.toInt_ofInt_of_lt c.isLt, BitVec.ofNat_toNat, BitVec.setWidth_eq]

@[simp] theorem encodeBytes_length (i : Instr) : (encodeBytes i).length = 22 :=
  Machine.Bytes.ofInt_length ..

theorem getElem?_encodeBytes (i : Instr) {k : Nat} (h : k < 22) :
    (encodeBytes i)[k]? = some ((encode i).extractLsb' (8 * k) 8) := by
  rw [encodeBytes, Machine.Bytes.getElem?_ofInt _ h, BitVec.extractLsb', Nat.shiftRight_eq_div_pow,
    Nat.pow_mul]

/-- The decoder reads the first 22 bytes and gives back the others. -/
theorem decodeBytes_of_decode {bs rest : List Byte} {i : Instr} (hlen : bs.length = 22)
    (h : decode (wordOfBytes bs) = .ok i) : decodeBytes (bs ++ rest) = .ok (i, rest) := by
  have hlong : ¬ (bs ++ rest).length < 22 := by simp [hlen]
  simp only [decodeBytes, if_neg hlong, List.take_left' hlen, List.drop_left' hlen, h]

/-- Settles O3: the word by `decode_encode`, and the word of its bytes is the word itself. -/
theorem encodedCommandDecodes : Obligations.EncodedCommandDecodes := by
  intro i h
  refine ⟨decode_encode h, fun rest => decodeBytes_of_decode (encodeBytes_length i) ?_⟩
  rw [encodeBytes, wordOfBytes_ofInt, decode_encode h]

/-! ## The word as a number -/

/-- The number of an assembled word, by its operands (R60, R66). -/
theorem toNat_encode {i : Instr} (h : WellFormed i) : (encode i).toNat =
    i.opcode.code.toNat + i.wOperand * 2 ^ 8 + i.aOperand * 2 ^ 16 + i.dOperand.toNat * 2 ^ 48 := by
  obtain ⟨ha, hw⟩ := (wellFormed_iff i).mp h
  rw [encode, toNat_assemble, BitVec.toNat_ofNat, BitVec.toNat_ofNat, Nat.mod_eq_of_lt ha,
    Nat.mod_eq_of_lt hw]

/-- Settles O2: the number by `toNat_encode`, whose fields are read off each command. -/
theorem assembledWordsFollowTheTable : Obligations.AssembledWordsFollowTheTable := by
  intro i h
  refine ⟨?_, encodeBytes_length i, fun k => getElem?_encodeBytes i⟩
  rw [toNat_encode h]
  cases i <;>
    simp [Instr.opcode, Opcode.code, Instr.aOperand, Instr.wOperand, Instr.dOperand,
      BitVec.toNat_setWidth_of_le, -BitVec.toNat_setWidth]

/-- Settles O4: the command is made of the word's own opcode and fields. -/
theorem decodedCommandIsWellFormed : Obligations.DecodedCommandIsWellFormed := by
  intro c i h
  obtain ⟨hcode, hoperands⟩ := decode_eq_ok_iff.mp h
  exact ⟨hoperands ▸ Opcode.wellFormed_operands i.opcode c, (opField_encode i).trans hcode⟩

/-- Settles O5: equal opcodes select the same operands, and these read equal fields. -/
theorem unreadFieldsAreIgnored : Obligations.UnreadFieldsAreIgnored := by
  intro c c' i h hop hread
  obtain ⟨hcode, hoperands⟩ := decode_eq_ok_iff.mp h
  refine decode_eq_ok_iff.mpr ⟨hcode.trans hop.symm, Eq.trans ?_ hoperands⟩
  cases i with
  | clrerr | rd128 | calc12 => rfl
  | setlen _ | rdb _ | setlayout _ | rdcsr _ | frd _ | wr128 _ =>
    simp only [Instr.opcode, Opcode.operands, hread]
  | extract _ _ | embed _ _ | verify _ _ | ldb _ _ | fwr _ _ =>
    obtain ⟨ha, hother⟩ := hread
    simp only [Instr.opcode, Opcode.operands, ha, hother]
  | set _ _ _ =>
    obtain ⟨ha, hw, hd⟩ := hread
    simp only [Instr.opcode, Opcode.operands, ha, hw, hd]

/-- Settles O1: six closed words, decoded. -/
theorem writtenWordsDecode : Obligations.WrittenWordsDecode := by
  refine ⟨?_, ?_, ?_, ?_, ?_, ?_⟩ <;> decide

/-! ## The opcodes that R61 lists -/

theorem toNat_opField (c : CmdWord) : (opField c).toNat = c.toNat % 256 := by
  simp [opField]

/-- A number names no opcode exactly when the table does not list it (R64). -/
theorem Opcode.ofCode_eq_none_iff {b : Byte} :
    Opcode.ofCode b = none ↔ b.toNat ∉ Opcode.all.map fun o => o.code.toNat := by
  simp [Opcode.ofCode, BitVec.toNat_inj]

/-- The numbers of the table, in its order (R61). -/
theorem Opcode.all_codes : (Opcode.all.map fun o => o.code.toNat) =
    [0x01, 0x02, 0x03, 0x04, 0x05, 0x06, 0x10, 0x11, 0x12, 0x13, 0x14, 0x15, 0x20, 0x21, 0x22] := rfl

end Sys2Proof

namespace Sys2Proof.Machine

/-! ## What a command word makes of a step (R62 to R64) -/

/-- A reserved word is taken from the host and answered with ERR_OP (R181). -/
theorem step_of_reserved {s : State} {c : CmdWord} {rest : List Input} {e : DecodeError}
    (hp : s.pending = .command c :: rest) (hd : decode c = .error e) :
    step s = .next (State.raiseErr { s with pending := rest } .op) := by
  simp only [step, State.present, hp, hd, execReserved]

/-- A word whose opcode the table does not list is reserved (R64). -/
theorem decode_of_not_listed {c : CmdWord} (h : Opcode.ofCode (opField c) = none) :
    decode c = .error (.reservedOpcode (opField c)) := by
  simp only [decode, h]

theorem decode_of_listed {c : CmdWord} (h : Opcode.ofCode (opField c) ≠ none) :
    ∃ i, decode c = .ok i := by
  obtain ⟨o, ho⟩ := Option.ne_none_iff_exists'.mp h
  exact ⟨o.operands c, by simp only [decode, ho]⟩

/-- Settles O6: the list of the statement is the list of the numbers of all opcodes. -/
theorem reservedOpcodeEndsInErrOp : Obligations.ReservedOpcodeEndsInErrOp := by
  intro s c rest hp
  rw [← Opcode.all_codes, ← toNat_opField]
  refine ⟨fun hout => ?_, fun hin => ?_⟩
  · exact step_of_reserved hp (decode_of_not_listed (Opcode.ofCode_eq_none_iff.mpr hout))
  · exact decode_of_listed fun hnone => Opcode.ofCode_eq_none_iff.mp hnone hin

/-- The value in the response to a command whose check finds no error: the value that it puts in `RES`, or 0 where
it produces none (R61, R63). -/
def answerValue (i : Instr) (s : State) : Wide :=
  if producesValue i = true then (effectOf i s).res else 0

theorem effectOf_responses (i : Instr) (s : State) :
    (effectOf i s).responses = s.responses ++ [⟨(effectOf i s).err, answerValue i s⟩] := by
  cases i <;> rfl

/-- Settles O11: a reserved word and a failed check raise an error other than `ok` with value 0, and an effect
answers `answerValue`. -/
theorem everyCommandGivesOneResponse : Obligations.EveryCommandGivesOneResponse := by
  intro s c rest hp
  cases hd : decode c with
  | error e => exact ⟨_, 0, step_of_reserved hp hd, rfl, rfl, by simp, by simp⟩
  | ok i =>
    have hstep := stepRunsTheDecodedCommand s c rest i hp hd
    cases hc : checkOf i { s with pending := rest } with
    | some e =>
      have he : e ≠ .ok := fun h => checkOf_ne_ok i _ (h ▸ hc)
      exact ⟨_, 0, hstep.trans (exec_of_some hc), rfl, rfl, by simp [he], by simp⟩
    | none =>
      refine ⟨_, _, hstep.trans (exec_of_none hc), effectOf_pending .., effectOf_responses .., ?_, ?_⟩
      · rintro ⟨-, j, hj, hv⟩
        obtain rfl : i = j := Except.ok.inj hj
        exact (if_pos hv).symm
      · intro hnot
        have hv : ¬ producesValue i = true := fun h => hnot ⟨effectOf_err .., i, rfl, h⟩
        exact ⟨if_neg hv, effectOf_res hv⟩

/-! ## CLRBUF (R67) -/

@[simp] theorem Bytes.resize_zero (B : List Byte) : Bytes.resize B 0 = [] := by simp [Bytes.resize]

@[simp] theorem Bytes.resize_nil (n : Nat) : Bytes.resize [] n = List.replicate n 0 := by
  cases n <;> simp [Bytes.resize]

theorem exec_setlen {s : State} {n : Nat} (h : n ≤ s.bufMax) :
    exec (.setlen n) s = .next (s.setBuf (Bytes.resize s.buf n)).finish :=
  exec_of_none ((s.checkLength_eq_none n).mpr h)

/-- Settles O26: the first SETLEN empties the buffer, and the second extends the empty buffer with zeros. -/
theorem clrbufGivesZeroBytes : Obligations.ClrbufGivesZeroBytes := by
  intro s n h
  exact ⟨rfl, _, _, exec_setlen (Nat.zero_le _), exec_setlen h, by simp, by simp⟩

/-! ## The field table -/

/-- Rows that carry the ids `k`, `k + 1`, … in order: the row found for an id is the one at its index. -/
theorem find?_id_of_ids {rows : List FieldEntry} {k : Nat}
    (h : rows.map (·.id) = List.range' k rows.length) (n : Nat) :
    rows.find? (fun r => r.id == k + n) = rows[n]? := by
  induction rows generalizing k n with
  | nil => rfl
  | cons r rows ih =>
    obtain ⟨rfl, hrest⟩ : r.id = k ∧ rows.map (·.id) = List.range' (k + 1) rows.length := by
      simpa [List.range'_succ] using h
    cases n with
    | zero => simp
    | succ n =>
      have hih := ih hrest n
      rw [show r.id + 1 + n = r.id + (n + 1) by omega] at hih
      simpa using hih

/-- The ids of a layout are the numbers from 0 on, in the order of its rows (R71, R72). -/
theorem fieldTable_ids (l : Layout) :
    (fieldTable l).map (·.id) = List.range' 0 (fieldTable l).length := by
  cases l <;> rfl

/-- The lookup of an id is the place in the row at that index. -/
theorem lookup_eq (l : Layout) (id : Nat) :
    lookup l id = ((fieldTable l).map fun r => (r.start, r.width))[id]? := by
  have hfind := find?_id_of_ids (fieldTable_ids l) id
  rw [Nat.zero_add] at hfind
  rw [lookup, hfind, List.getElem?_map]

/-- The row of a name that the layout has. -/
theorem lookup_eq_some_iff {l : Layout} {id start w : Nat} : lookup l id = some (start, w) ↔
    ∃ r, (fieldTable l)[id]? = some r ∧ r.start = start ∧ r.width = w := by
  simp [lookup_eq]

/-- A name that the layout lacks ends FRD and FWR alike (R74). -/
theorem exec_named_of_none {s : State} {id : Nat} (v : BitVec 64) (h : lookup s.layout id = none) :
    exec (.frd id) s = .next (s.raiseErr .name) ∧ exec (.fwr id v) s = .next (s.raiseErr .name) :=
  ⟨exec_of_some (s.checkNamed_none h), exec_of_some (s.checkNamed_none h)⟩

/-- Settles O33: the places of the rows are the literal tables, the header's 16 before the tail's 3. -/
theorem lookupFollowsTheTable : Obligations.LookupFollowsTheTable := by
  refine ⟨fun s id v h => exec_named_of_none v h, fun l id => ?_⟩
  rw [lookup_eq]
  by_cases hid : id ≤ 15
  · rw [if_pos hid]
    cases l with
    | h16 => rfl
    | h20 =>
      rw [fieldTable, List.map_append, List.getElem?_append_left (Nat.lt_succ_of_le hid)]
      rfl
  · rw [if_neg hid]
    have hpast : 16 ≤ id := Nat.lt_of_not_le hid
    cases l with
    | h16 =>
      rw [if_neg fun h => Layout.noConfusion h.2]
      exact List.getElem?_eq_none hpast
    | h20 =>
      rw [fieldTable, List.map_append, List.getElem?_append_right hpast]
      by_cases htail : id ≤ 18
      · rw [if_pos ⟨htail, rfl⟩]
        rfl
      · rw [if_neg fun h => htail h.1]
        exact List.getElem?_eq_none (Nat.le_sub_of_add_le (Nat.lt_of_not_le htail))

/-- Rows that stand one after another, without a gap, from bit `lo` up to bit `hi`. -/
def TilesFrom (hi : Nat) : Nat → List FieldEntry → Prop
  | lo, [] => lo = hi
  | lo, r :: rows => r.start = lo ∧ TilesFrom hi (lo + r.width) rows

theorem fieldTable_tiles (l : Layout) : TilesFrom (8 * l.headerBytes) 0 (fieldTable l) := by
  cases l <;> simp [TilesFrom, fieldTable, headerRows, tailRows, Layout.headerBytes, Config.hdr16,
    Config.hdr20]

namespace TilesFrom

variable {lo hi : Nat} {rows : List FieldEntry}

/-- A row lies between the two ends. -/
theorem bounds (h : TilesFrom hi lo rows) : lo ≤ hi ∧ ∀ r ∈ rows, lo ≤ r.start ∧ r.start + r.width ≤ hi := by
  induction rows generalizing lo with
  | nil => exact ⟨h.le, by simp⟩
  | cons r rows ih =>
    obtain ⟨rfl, hrest⟩ := h
    obtain ⟨hle, hrows⟩ := ih hrest
    refine ⟨by omega, List.forall_mem_cons.mpr ⟨by omega, fun r' hr' => ?_⟩⟩
    have := hrows r' hr'
    omega

/-- Each row ends where a later one starts, or before. -/
theorem pairwise (h : TilesFrom hi lo rows) :
    rows.Pairwise fun r r' => r.start + r.width ≤ r'.start := by
  induction rows generalizing lo with
  | nil => exact .nil
  | cons r rows ih =>
    obtain ⟨rfl, hrest⟩ := h
    exact .cons (fun r' hr' => (hrest.bounds.2 r' hr').1) (ih hrest)

/-- Every bit between the two ends lies in a row. -/
theorem exists_row (h : TilesFrom hi lo rows) {n : Nat} (hlo : lo ≤ n) (hhi : n < hi) :
    ∃ r ∈ rows, r.start ≤ n ∧ n < r.start + r.width := by
  induction rows generalizing lo with
  | nil => exact absurd h (by simp [TilesFrom]; omega)
  | cons r rows ih =>
    obtain ⟨rfl, hrest⟩ := h
    by_cases hn : n < r.start + r.width
    · exact ⟨r, by simp, hlo, hn⟩
    · obtain ⟨r', hr', hin⟩ := ih hrest (by omega)
      exact ⟨r', by simp [hr'], hin⟩

end TilesFrom

/-- The widths of the fields are widths that a field access may have (R182). -/
theorem fieldTable_width (l : Layout) : ∀ r ∈ fieldTable l, 1 ≤ r.width ∧ r.width ≤ 64 := by
  cases l <;> decide

section Lookup

variable {l : Layout} {id start w : Nat} (h : lookup l id = some (start, w))
include h

theorem lookup_width : 1 ≤ w ∧ w ≤ 64 := by
  obtain ⟨r, hr, rfl, rfl⟩ := lookup_eq_some_iff.mp h
  exact fieldTable_width l r (List.mem_of_getElem? hr)

theorem lookup_le : start + w ≤ 8 * l.headerBytes := by
  obtain ⟨r, hr, rfl, rfl⟩ := lookup_eq_some_iff.mp h
  exact ((fieldTable_tiles l).bounds.2 r (List.mem_of_getElem? hr)).2

/-- The field of a lower id ends where that of a higher id starts, or before. -/
theorem lookup_le_of_lt {id' start' w' : Nat} (h' : lookup l id' = some (start', w'))
    (hlt : id < id') : start + w ≤ start' := by
  obtain ⟨r, hr, rfl, rfl⟩ := lookup_eq_some_iff.mp h
  obtain ⟨r', hr', rfl, rfl⟩ := lookup_eq_some_iff.mp h'
  obtain ⟨hid, rfl⟩ := List.getElem?_eq_some_iff.mp hr
  obtain ⟨hid', rfl⟩ := List.getElem?_eq_some_iff.mp hr'
  exact List.pairwise_iff_getElem.mp (fieldTable_tiles l).pairwise id id' hid hid' hlt

/-- Fields of different names are disjoint (R80). -/
theorem lookup_disjoint {id' start' w' : Nat} (h' : lookup l id' = some (start', w'))
    (hne : id ≠ id') : start + w ≤ start' ∨ start' + w' ≤ start :=
  (Nat.lt_or_gt_of_ne hne).imp (lookup_le_of_lt h h') (lookup_le_of_lt h' h)

end Lookup

/-- Settles O34: a layout's rows stand one after another from bit 0 to the end of its header. -/
theorem fieldsTileTheHeader : Obligations.FieldsTileTheHeader := by
  intro l
  refine ⟨fun id id' start w start' w' hne h h' => lookup_disjoint h h' hne,
    fun id start w h => ⟨(lookup_width h).1, (lookup_width h).2, lookup_le h⟩, fun n hn => ?_⟩
  obtain ⟨r, hr, hin⟩ := (fieldTable_tiles l).exists_row (Nat.zero_le n) hn
  obtain ⟨id, hid⟩ := List.mem_iff_getElem?.mp hr
  exact ⟨id, r.start, r.width, lookup_eq_some_iff.mpr ⟨r, hid, rfl, rfl⟩, hin⟩

/-! ## Reading a named field after a write (R108, R109) -/

namespace Bytes

variable {B : List Byte} {s w : Nat} (v : Nat) (h : s + w ≤ 8 * B.length)
include h

/-- A field reads back what was written to it, truncated to its width (R108). -/
theorem extract_insert_same : extract (insert B s w v) s w = v % 2 ^ w := by
  apply Nat.eq_of_testBit_eq
  intro n
  rw [testBit_extract, testBit_insert v h, Nat.testBit_mod_two_pow]
  by_cases hn : n < w <;> simp [hn]

/-- A disjoint field reads as before the write (R109). -/
theorem extract_insert_disjoint {s' w' : Nat} (hdisj : s + w ≤ s' ∨ s' + w' ≤ s) :
    extract (insert B s w v) s' w' = extract B s' w' := by
  apply Nat.eq_of_testBit_eq
  intro n
  rw [testBit_extract, testBit_extract, testBit_insert v h]
  by_cases hn : n < w'
  · rw [if_neg (by omega)]
  · simp [hn]

end Bytes

/-- A named field that lies in the buffer passes the check. -/
theorem State.checkNamed_of_fits {s : State} {id start w : Nat} (h : lookup s.layout id = some (start, w))
    (hin : start + w ≤ 8 * s.len) : s.checkNamed id = none := by
  rwa [s.checkNamed_some h, s.checkBits_eq_none]

theorem exec_fwr {s : State} {id start w : Nat} (v : BitVec 64) (h : lookup s.layout id = some (start, w))
    (hin : start + w ≤ 8 * s.len) :
    exec (.fwr id v) s = .next (s.setBuf (Bytes.insert s.buf start w v.toNat)).finish := by
  rw [exec_of_none (i := .fwr id v) (State.checkNamed_of_fits h hin), effectOf, s.namedField_some h]

theorem exec_frd {s : State} {id start w : Nat} (h : lookup s.layout id = some (start, w))
    (hin : start + w ≤ 8 * s.len) :
    exec (.frd id) s = .next (s.finishWith (zext128 (Bytes.extract s.buf start w))) := by
  rw [exec_of_none (i := .frd id) (State.checkNamed_of_fits h hin), effectOf, s.namedField_some h]

/-- FRD ends alike on two states that agree on `LEN`, `LAYOUT`, `BUF_MAX`, `RES` and the bits of the field. -/
theorem exec_frd_alike {s t : State} {id : Nat} (hlen : t.len = s.len) (hlayout : t.layout = s.layout)
    (hmax : t.bufMax = s.bufMax) (hres : t.res = s.res)
    (hfield : ∀ start w, lookup s.layout id = some (start, w) →
      Bytes.extract t.buf start w = Bytes.extract s.buf start w) :
    ∃ x y, exec (.frd id) s = .next x ∧ exec (.frd id) t = .next y ∧ x.err = y.err ∧ x.res = y.res := by
  have hcheck := checkOf_congr (.frd id) hlen hlayout hmax
  cases hc : checkOf (.frd id) s with
  | some e => exact ⟨_, _, exec_of_some hc, exec_of_some (hcheck.trans hc), rfl, hres.symm⟩
  | none =>
    refine ⟨_, _, exec_of_none hc, exec_of_none (hcheck.trans hc), rfl, ?_⟩
    cases hl : lookup s.layout id with
    | none => simp [checkOf, s.checkNamed_none hl] at hc
    | some place =>
      simp only [effectOf, State.finishWith_res, s.namedField_some hl, t.namedField_some (hlayout ▸ hl),
        hfield _ _ hl]

/-- Settles O37: the field itself by `Bytes.extract_insert_same`, every other name by `lookup_disjoint`. -/
theorem namedFieldReadsBack : Obligations.NamedFieldReadsBack := by
  intro s id start w v h hin
  have hbuf : start + w ≤ 8 * s.buf.length := by rwa [s.buf_length]
  refine ⟨_, _, exec_fwr v h hin, exec_frd h (by simpa using hin), rfl, ?_, fun id' hne => ?_⟩
  · have hw : w ≤ 128 := (lookup_width h).2.trans (by decide)
    simp only [State.finishWith_res, State.finish_buf, State.buf_setBuf]
    rw [Bytes.extract_insert_same _ hbuf]
    exact zext128_toNat ((Nat.mod_lt _ (Nat.two_pow_pos w)).trans_le (Nat.pow_le_pow_right (by decide) hw))
  · refine exec_frd_alike (by simp) rfl rfl rfl fun start' w' h' => ?_
    simp only [State.finish_buf, State.buf_setBuf]
    exact Bytes.extract_insert_disjoint _ hbuf (lookup_disjoint h h' hne.symm)

end Sys2Proof.Machine

/-! # Bit Frame: reads and writes of fields, of named fields and of the first 16 bytes (spec/40_bitframe.md) -/

namespace Sys2Proof.Machine

/-! ## `Extract` and `Insert` on byte lists (R100, R101, R108, R109) -/

namespace Bytes

/-- A field that is one bit wider has that bit on top. -/
theorem extract_succ (B : List Byte) (s w : Nat) :
    extract B s (w + 1) = extract B s w + bit B (s + w) * 2 ^ w := by
  have hbit : bit B (s + w) = toInt B / 2 ^ s / 2 ^ w % 2 := by
    rw [bit_eq_testBit, Nat.toNat_testBit, Nat.pow_add, Nat.div_div_eq_div_mul]
  rw [extract, trunc, Nat.mod_pow_succ, ← hbit, Nat.mul_comm (2 ^ w)]
  rfl

theorem extract_eq_sum (B : List Byte) (s w : Nat) :
    extract B s w = ∑ i ∈ Finset.range w, bit B (s + i) * 2 ^ i := by
  induction w with
  | zero => simp [extract, trunc, Nat.mod_one]
  | succ w ih => rw [Finset.sum_range_succ, extract_succ, ih]

section Insert

variable {B : List Byte} {s w : Nat} (h : s + w ≤ 8 * B.length)
include h

/-- A bit after `insert`: the truncated value's bit inside the field, the old bit elsewhere (R101). -/
theorem bit_insert (v n : Nat) : bit (insert B s w v) n =
    if s ≤ n ∧ n < s + w then v % 2 ^ w / 2 ^ (n - s) % 2 else bit B n := by
  rw [bit_eq_testBit, bit_eq_testBit, testBit_insert v h]
  split
  · rw [← Nat.toNat_testBit, Nat.testBit_mod_two_pow, decide_eq_true (by omega), Bool.true_and]
  · rfl

/-- The integer view of `insert`, without the subtraction (R101). -/
theorem toInt_insert_add (v : Nat) :
    toInt (insert B s w v) + extract B s w * 2 ^ s = toInt B + v % 2 ^ w * 2 ^ s := by
  have hsplit := toInt_split B s w
  rw [toInt_insert v h]
  linarith

/-- A field overwritten with what it holds: nothing changes (R108). -/
theorem insert_extract : insert B s w (extract B s w) = B := by
  apply toInt_injective (insert_length ..)
  rw [toInt_insert _ h, Nat.mod_eq_of_lt (extract_lt B s w)]
  exact (toInt_split B s w).symm

/-- Writes to disjoint fields commute (R109). -/
theorem insert_comm {s' w' : Nat} (v v' : Nat) (h' : s' + w' ≤ 8 * B.length)
    (hdisj : s + w ≤ s' ∨ s' + w' ≤ s) :
    insert (insert B s w v) s' w' v' = insert (insert B s' w' v') s w v := by
  apply toInt_injective (by simp)
  apply Nat.eq_of_testBit_eq
  intro n
  rw [testBit_insert v' (by simpa using h'), testBit_insert v h, testBit_insert v (by simpa using h),
    testBit_insert v' h']
  by_cases hn : s ≤ n ∧ n < s + w
  · rw [if_neg (by omega), if_pos hn, if_pos hn]
  · rw [if_neg hn, if_neg hn]

end Insert

/-! ## Bytes that a write leaves as they were -/

/-- Two lists of one length have the same byte where their integers have the same eight bits. -/
theorem getElem?_eq_of_testBit {B C : List Byte} {k : Nat} (hlen : B.length = C.length)
    (hbits : ∀ j < 8, (toInt B).testBit (8 * k + j) = (toInt C).testBit (8 * k + j)) : B[k]? = C[k]? := by
  by_cases hk : k < C.length
  · have hbyte : B[k] = C[k] := by
      apply BitVec.eq_of_getLsbD_eq
      intro j hj
      have hbit := hbits j hj
      rw [testBit_toInt, testBit_toInt, show (8 * k + j) / 8 = k by omega,
        show (8 * k + j) % 8 = j by omega] at hbit
      simpa [hlen, hk] using hbit
    simp [hlen, hk, hbyte]
  · simp [hlen, hk]

/-- A write to a field leaves the bytes that hold none of its bits (R103). -/
theorem getElem?_insert_outside {B : List Byte} {s w k : Nat} (v : Nat) (h : s + w ≤ 8 * B.length)
    (hk : k < s / 8 ∨ (s + w - 1) / 8 < k) : (insert B s w v)[k]? = B[k]? := by
  apply getElem?_eq_of_testBit (insert_length ..)
  intro j hj
  rw [testBit_insert v h, if_neg (by omega)]

section MemWrite

variable {B : List Byte} {addr n : Nat} (v : Nat) (h : addr + n ≤ B.length)
include h

theorem getElem?_memWrite_inside {i : Nat} (hi : i < n) :
    (memWrite B addr n v)[addr + i]? = (ofInt n v)[i]? := by
  have htake : (B.take addr).length = addr := List.length_take_of_le (by omega)
  rw [memWrite, List.append_assoc, List.getElem?_append_right (by omega),
    List.getElem?_append_left (by simp; omega), htake, Nat.add_sub_cancel_left]

theorem getElem?_memWrite_above {k : Nat} (hk : addr + n ≤ k) : (memWrite B addr n v)[k]? = B[k]? := by
  have hput : (B.take addr ++ ofInt n v).length = addr + n := by simp; omega
  rw [memWrite, List.getElem?_append_right (by omega), hput, List.getElem?_drop, Nat.add_sub_cancel' hk]

/-- A byte access reads back what was written at its place (R110). -/
theorem memRead_memWrite : memRead (memWrite B addr n v) addr n = v % 2 ^ (8 * n) := by
  have htake : (B.take addr).length = addr := List.length_take_of_le (by omega)
  rw [memRead, memWrite, List.append_assoc, List.drop_left' htake, List.take_left' (ofInt_length n v),
    toInt_ofInt]

/-- Bytes overwritten with what they hold: nothing changes (R110). -/
theorem memWrite_memRead : memWrite B addr n (memRead B addr n) = B := by
  have hlen : ((B.drop addr).take n).length = n := by simp; omega
  have hbytes : ofInt n (memRead B addr n) = (B.drop addr).take n := by
    have hback := ofInt_toInt ((B.drop addr).take n)
    rwa [hlen] at hback
  rw [memWrite, hbytes, List.append_assoc, ← List.drop_drop, List.take_append_drop, List.take_append_drop]

end MemWrite

end Bytes

/-- Settles O41: the sum by `Bytes.extract_eq_sum`, and the slice is the definition. -/
theorem extractIsTheSumOfItsBits : Obligations.ExtractIsTheSumOfItsBits :=
  fun B s w _ _ => ⟨Bytes.extract_eq_sum B s w, rfl, Bytes.extract_lt B s w⟩

/-- Settles O42: the length, the bits and the integer of `Insert`, each by its lemma. -/
theorem insertReplacesTheFieldBits : Obligations.InsertReplacesTheFieldBits :=
  fun B s w v _ h =>
    ⟨Bytes.insert_length B s w v, fun n _ => Bytes.bit_insert h v n, Bytes.toInt_insert_add h v⟩

/-- Settles O43: the three laws, each by its lemma. -/
theorem readAfterWriteLaws : Obligations.ReadAfterWriteLaws :=
  fun _ _ _ v _ h =>
    ⟨Bytes.extract_insert_same v h, Bytes.insert_insert v v h, Bytes.insert_extract h⟩

/-- Settles O44: the laws for disjoint fields, and different names have disjoint fields (`lookup_disjoint`). -/
theorem disjointFieldsDoNotInterfere : Obligations.DisjointFieldsDoNotInterfere := by
  refine ⟨fun B s w v s' w' _ h _ _ hdisj => Bytes.extract_insert_disjoint v h hdisj.symm, ?_⟩
  intro B l id id' s w s' w' v v' hne hl hl' h h'
  have hdisj := lookup_disjoint hl hl' hne
  exact ⟨Bytes.insert_comm h v v' h' hdisj, Bytes.extract_insert_disjoint v h hdisj⟩

/-! ## The bits of the buffer, and of what a read produces -/

/-- A bit of the buffer is a bit of its integer. -/
theorem State.readBit_eq_testBit (s : State) (n : Nat) : s.readBit n = (Bytes.toInt s.buf).testBit n := by
  rw [s.readBit_eq, Bytes.testBit_toInt]

/-- A field of at most 128 bits, in a register of 128 bits: the buffer's bits below its width, 0 above (R102). -/
theorem getLsbD_zext128_extract (s : State) (a : Nat) {w : Nat} (hw : w ≤ 128) (i : Nat) :
    (zext128 (Bytes.extract s.buf a w)).getLsbD i = (decide (i < w) && s.readBit (a + i)) := by
  have hfits : Bytes.extract s.buf a w < 2 ^ 128 :=
    (Bytes.extract_lt ..).trans_le (Nat.pow_le_pow_right (by decide) hw)
  rw [BitVec.getLsbD, zext128_toNat hfits, Bytes.testBit_extract, s.readBit_eq_testBit]

/-! ## The end of a command that stores a buffer -/

/-- A write that keeps the length changes the bytes of the buffer and nothing else of a completed command. -/
theorem State.finish_setBuf (s : State) {B : List Byte} (h : B.length = s.len) :
    (s.setBuf B).finish = { s.completed with mem := (s.setBuf B).finish.mem } := by
  simp [State.finish, State.latchOk, State.respond, State.completed, State.setBuf, h]

/-- The bits after a write to a field (R103, R105). -/
theorem State.readBit_setBuf_insert (s : State) {a w : Nat} (v : Nat) (h : a + w ≤ 8 * s.len) (n : Nat) :
    (s.setBuf (Bytes.insert s.buf a w v)).readBit n =
      if a ≤ n ∧ n < a + w then v.testBit (n - a) else s.readBit n := by
  rw [State.readBit_eq_testBit, State.buf_setBuf, Bytes.testBit_insert _ (by rwa [s.buf_length]),
    s.readBit_eq_testBit]

/-- The bytes that a write to a field does not touch (R103, R105). -/
theorem State.readByte_setBuf_insert (s : State) {a w k : Nat} (v : Nat) (h : a + w ≤ 8 * s.len)
    (hk : k < a / 8 ∨ (a + w - 1) / 8 < k) :
    (s.setBuf (Bytes.insert s.buf a w v)).readByte k = s.readByte k := by
  rw [State.readByte_setBuf, Bytes.getElem?_insert_outside v (by rwa [s.buf_length]) hk, s.readByte_eq]

/-! ## EXTRACT and SET (R102, R103) -/

section BitRange

variable {i : Instr} {s : State} {a w : Nat} (hcheck : checkOf i s = s.checkField a w)
include hcheck

/-- A command with a bit range and a width of 0 or above 64 (R182). -/
theorem exec_of_bad_width (hw : w = 0 ∨ 64 < w) : exec i s = .next (s.failedWith .width) :=
  exec_of_some (hcheck.trans (s.checkField_width a hw))

/-- A command with a legal width and a bit range that passes the end of the buffer (R183, R187). -/
theorem exec_of_bad_range (hw : 1 ≤ w) (hw' : w ≤ 64) (hout : 8 * s.len < a + w) :
    exec i s = .next (s.failedWith .range) :=
  exec_of_some (hcheck.trans ((s.checkField_range a hw hw').trans ((s.checkBits_eq_some a w).mpr hout)))

end BitRange

/-- Settles O27: the two errors, and the bits of the value by `getLsbD_zext128_extract`. -/
theorem extractProducesTheFieldBits : Obligations.ExtractProducesTheFieldBits := by
  intro s a w
  refine ⟨exec_of_bad_width rfl, exec_of_bad_range rfl, fun hw hw' hin => ?_⟩
  exact ⟨_, exec_of_none (State.checkField_eq_none.mpr ⟨hw, hw', hin⟩),
    getLsbD_zext128_extract s a (hw'.trans (by decide))⟩

/-- Settles O28: the two errors, and what the stored buffer keeps, bit by bit and byte by byte. -/
theorem setWritesTheFieldBitsOnly : Obligations.SetWritesTheFieldBitsOnly := by
  intro s a w v
  refine ⟨exec_of_bad_width rfl, exec_of_bad_range rfl, fun hw hw' hin => ?_⟩
  exact ⟨_, exec_of_none (State.checkField_eq_none.mpr ⟨hw, hw', hin⟩),
    s.finish_setBuf ((Bytes.insert_length ..).trans s.buf_length),
    s.readBit_setBuf_insert v.toNat hin, fun _ => s.readByte_setBuf_insert v.toNat hin⟩

/-! ## FRD and FWR (R104, R105) -/

/-- Commands with the same check and the same effect on a state end alike on it. -/
theorem exec_congr {i j : Instr} {s : State} (hcheck : checkOf i s = checkOf j s)
    (heffect : effectOf i s = effectOf j s) : exec i s = exec j s := by
  cases hc : checkOf j s with
  | some e => rw [exec_of_some hc, exec_of_some (hcheck.trans hc)]
  | none => rw [exec_of_none hc, exec_of_none (hcheck.trans hc), heffect]

/-- The check of a name that the layout has is that of a field access at its place: its width is legal (R71, R72). -/
theorem State.checkNamed_eq_checkField {s : State} {id start w : Nat}
    (h : lookup s.layout id = some (start, w)) : s.checkNamed id = s.checkField start w := by
  obtain ⟨hw, hw'⟩ := lookup_width h
  rw [s.checkNamed_some h, s.checkField_range start hw hw']

/-- Settles O36: a name and its place give the same check and the same effect. -/
theorem namedAccessIsFieldAccess : Obligations.NamedAccessIsFieldAccess := by
  intro s id start w v h
  have hcheck := State.checkNamed_eq_checkField h
  have hplace := s.namedField_some h
  exact ⟨exec_congr hcheck (by simp only [effectOf, hplace]),
    exec_congr hcheck (by simp only [effectOf, hplace])⟩

/-- Settles O29: ERR_NAME for a missing name, else EXTRACT at the name's place. -/
theorem frdProducesTheNamedField : Obligations.FrdProducesTheNamedField := by
  intro s id
  refine ⟨fun h => (exec_named_of_none 0 h).1, fun start w h => ?_⟩
  obtain ⟨hw, hw'⟩ := lookup_width h
  obtain ⟨-, hrange, hvalue⟩ := extractProducesTheFieldBits s start w
  rw [(namedAccessIsFieldAccess s id start w 0 h).1]
  exact ⟨hrange hw hw', hvalue hw hw'⟩

/-- Settles O30: ERR_NAME for a missing name, else SET at the name's place. -/
theorem fwrWritesTheNamedFieldOnly : Obligations.FwrWritesTheNamedFieldOnly := by
  intro s id v
  refine ⟨fun h => (exec_named_of_none v h).2, fun start w h => ?_⟩
  obtain ⟨hw, hw'⟩ := lookup_width h
  obtain ⟨-, hrange, hwrite⟩ := setWritesTheFieldBitsOnly s start w v
  rw [(namedAccessIsFieldAccess s id start w v h).2]
  exact ⟨hrange hw hw', hwrite hw hw'⟩

/-! ## RD128 and WR128 (R106, R107, R110) -/

/-- RD128 and WR128 with fewer than 16 bytes (R183). -/
theorem exec_of_short_buffer {i : Instr} {s : State} (hcheck : checkOf i s = s.checkHeader)
    (hlen : s.len < 16) : exec i s = .next (s.failedWith .range) :=
  exec_of_some (hcheck.trans (s.checkHeader_eq_some.mpr hlen))

section Header

variable {s : State} (h : 16 ≤ s.len)
include h

/-- The first 16 bytes of the buffer stand in the list view. -/
theorem State.header_le : 0 + 16 ≤ s.buf.length := by simpa using h

theorem exec_rd128 : exec .rd128 s = .next (s.finishWith (zext128 (Bytes.memRead s.buf 0 16))) :=
  exec_of_none (s.checkHeader_eq_none.mpr h)

theorem exec_wr128 (v : Wide) :
    exec (.wr128 v) s = .next (s.setBuf (Bytes.memWrite s.buf 0 16 v.toNat)).finish :=
  exec_of_none (s.checkHeader_eq_none.mpr h)

theorem State.readByte_setBuf_memWrite_header (v : Wide) {i : Nat} (hi : i < 16) :
    (s.setBuf (Bytes.memWrite s.buf 0 16 v.toNat)).readByte i = some (v.extractLsb' (8 * i) 8) := by
  have hbyte := Bytes.getElem?_memWrite_inside v.toNat (State.header_le h) hi
  rw [Nat.zero_add] at hbyte
  rw [State.readByte_setBuf, hbyte, Bytes.getElem?_ofInt _ hi, BitVec.extractLsb',
    Nat.shiftRight_eq_div_pow, Nat.pow_mul]

theorem State.readByte_setBuf_memWrite_above (v : Wide) {k : Nat} (hk : 16 ≤ k) :
    (s.setBuf (Bytes.memWrite s.buf 0 16 v.toNat)).readByte k = s.readByte k := by
  rw [State.readByte_setBuf, Bytes.getElem?_memWrite_above _ (State.header_le h) (by simpa using hk),
    s.readByte_eq]

/-- The value of RD128 written back stores the buffer that is there (R110). -/
theorem memWrite_zext128_memRead_header :
    Bytes.memWrite s.buf 0 16 (zext128 (Bytes.memRead s.buf 0 16)).toNat = s.buf := by
  rw [zext128_toNat (Bytes.memRead_lt (State.header_le h)), Bytes.memWrite_memRead (State.header_le h)]

/-- The value of RD128, bit by bit: the first 16 bytes are the field of the first 128 bits (R106). -/
theorem getLsbD_zext128_memRead_header (i : Nat) :
    (zext128 (Bytes.memRead s.buf 0 16)).getLsbD i = (decide (i < 128) && s.readBit i) := by
  rw [Bytes.memRead_eq_extract (State.header_le h), getLsbD_zext128_extract s _ le_rfl]
  simp

end Header

/-- Settles O31: the error, and the bits of the value by `getLsbD_zext128_memRead_header`. -/
theorem rd128ProducesTheHeader : Obligations.Rd128ProducesTheHeader := by
  intro s
  refine ⟨exec_of_short_buffer rfl, fun h => ⟨_, exec_rd128 h, fun i hi => ?_⟩⟩
  exact (getLsbD_zext128_memRead_header h i).trans (by simp [hi])

/-- Settles O32: the stored buffer has the value's bytes below 16 and the old ones above. -/
theorem wr128WritesTheHeaderOnly : Obligations.Wr128WritesTheHeaderOnly := by
  intro s v
  refine ⟨exec_of_short_buffer rfl, fun h => ⟨_, exec_wr128 h v, ?_, ?_, ?_⟩⟩
  · exact s.finish_setBuf (s.memWrite_buf_length _ (by simpa using h))
  · exact fun i => State.readByte_setBuf_memWrite_header h v
  · exact fun k => State.readByte_setBuf_memWrite_above h v

/-- Settles O38: what was written is read back; and since writing back what was read stores the same buffer, the
bytes of that buffer are those that WR128 stores (`wr128WritesTheHeaderOnly`). -/
theorem wideRoundTrip : Obligations.WideRoundTrip := by
  intro s d h
  constructor
  · have hlen : (s.setBuf (Bytes.memWrite s.buf 0 16 d.toNat)).len = s.len :=
      s.memWrite_buf_length _ (by simpa using h)
    refine ⟨_, _, exec_wr128 h d, exec_rd128 (h.trans hlen.ge), ?_⟩
    simp only [State.finishWith_res, State.finish_buf, State.buf_setBuf]
    rw [Bytes.memRead_memWrite _ (State.header_le h), Nat.mod_eq_of_lt d.isLt]
    exact BitVec.ofNat_toNat ..
  · have hback := memWrite_zext128_memRead_header h
    refine ⟨_, _, exec_rd128 h, exec_wr128 (by simpa using h) _, fun a => ?_, fun i hi => ?_⟩
    · simp [hback, s.readByte_eq]
    · have hbyte := State.readByte_setBuf_memWrite_header h (zext128 (Bytes.memRead s.buf 0 16)) hi
      rwa [State.readByte_setBuf, hback, ← s.readByte_eq] at hbyte

end Sys2Proof.Machine

/-! # Checksum: the words, the fold, and CALC, EMBED and VERIFY (spec/41_checksum.md) -/

namespace Sys2Proof.Machine

/-! ## The words (R130) -/

namespace Bytes

/-- A byte list has the integer 0 exactly when it holds no other byte than 0. -/
theorem toInt_eq_zero_iff (B : List Byte) : toInt B = 0 ↔ ∀ b ∈ B, b = 0 := by
  induction B with
  | nil => simp [toInt]
  | cons b bs ih =>
    have hb : b.toNat = 0 ↔ b = 0 := by simp [← BitVec.toNat_inj]
    rw [toInt, List.forall_mem_cons, ← ih, ← hb]
    omega

/-- Zero bytes at the end add nothing to the integer. -/
theorem toInt_append_zeros (B : List Byte) (n : Nat) : toInt (B ++ List.replicate n 0) = toInt B := by
  have hzeros : toInt (List.replicate n 0) = 0 :=
    (toInt_eq_zero_iff _).mpr fun _ hb => List.eq_of_mem_replicate hb
  rw [toInt_append, hzeros, Nat.mul_zero, Nat.add_zero]

/-- A buffer that SETLEN extends keeps its integer. -/
theorem toInt_resize {B : List Byte} {n : Nat} (h : B.length ≤ n) : toInt (resize B n) = toInt B := by
  rcases h.eq_or_lt with rfl | hlt
  · simp [resize]
  · rw [resize, if_neg (Nat.not_le.mpr hlt), toInt_append_zeros]

/-- A bit past the end of a byte list is 0 (`PBit` of R130). -/
theorem bit_past {B : List Byte} {n : Nat} (h : 8 * B.length ≤ n) : bit B n = 0 := by
  have hnone : B[n / 8]? = none := List.getElem?_eq_none (by omega)
  simp [bit, List.getD_eq_getElem?_getD, hnone]

end Bytes

/-- Word `k` is the field of 12 bits at bit `12k`, padded with zeros (R130). -/
theorem checkWords_get {B : List Byte} {k : Nat} (h : k < numWords B.length) :
    (checkWords B)[k]? = some (Bytes.extract B (12 * k) 12) :=
  wordsOfInt_get _ _ _ h

/-- Three bytes are two words, the middle byte shared between them (R130). -/
theorem checkWords_three_bytes (b₀ b₁ b₂ : Byte) (B : List Byte) : checkWords (b₀ :: b₁ :: b₂ :: B) =
    (b₀.toNat + 256 * (b₁.toNat % 16)) :: (b₁.toNat / 16 + 16 * b₂.toNat) :: checkWords B := by
  have hcount : numWords (B.length + 1 + 1 + 1) = numWords B.length + 1 + 1 := by
    simp only [numWords]
    omega
  have h₀ := b₀.isLt
  have h₁ := b₁.isLt
  have h₂ := b₂.isLt
  simp only [checkWords, List.length_cons, hcount, wordsOfInt, Bytes.toInt, List.cons.injEq]
  refine ⟨by omega, by omega, ?_⟩
  congr 1
  omega

/-- Settles O49: the words by `checkWords_get`, a field's value being the sum of its bits, and the groups of three
bytes by `checkWords_three_bytes`. -/
theorem wordsAreTwelveBitSlices : Obligations.WordsAreTwelveBitSlices := by
  refine ⟨fun B => ⟨checkWords_length B, fun k hk => ?_⟩, fun _ _ => Bytes.bit_past,
    checkWords_three_bytes⟩
  have hword := checkWords_get (B := B) hk
  exact ⟨hword.trans (congrArg some (Bytes.extract_eq_sum B (12 * k) 12)), hword, fun _ => hword⟩

/-! ## The sum of the words (R131, R143) -/

/-- A number that is cut into enough words has the residue of their sum, because 4096 is 1 modulo 4095, and it is 0
only if the sum is. -/
theorem sum_wordsOfInt {n v : Nat} (h : v < 4096 ^ n) :
    (wordsOfInt n v).sum % 4095 = v % 4095 ∧ ((wordsOfInt n v).sum = 0 ↔ v = 0) := by
  induction n generalizing v with
  | zero =>
    obtain rfl : v = 0 := by simpa using h
    simp [wordsOfInt]
  | succ n ih =>
    obtain ⟨hres, hzero⟩ := ih (Nat.div_lt_of_lt_mul (by rwa [Nat.pow_succ'] at h))
    rw [wordsOfInt, List.sum_cons]
    omega

/-- The words of a byte list hold all of its bits. -/
theorem toInt_lt_words (B : List Byte) : Bytes.toInt B < 4096 ^ numWords B.length := by
  have hbits : 8 * B.length ≤ 12 * numWords B.length := by
    simp only [numWords]
    omega
  calc Bytes.toInt B < 2 ^ (8 * B.length) := Bytes.toInt_lt B
    _ ≤ 2 ^ (12 * numWords B.length) := Nat.pow_le_pow_right (by decide) hbits
    _ = 4096 ^ numWords B.length := Nat.pow_mul 2 12 _

theorem sumWords_mod (B : List Byte) : sumWords B % 4095 = Bytes.toInt B % 4095 :=
  (sum_wordsOfInt (toInt_lt_words B)).1

theorem sumWords_eq_zero_iff (B : List Byte) : sumWords B = 0 ↔ Bytes.toInt B = 0 :=
  (sum_wordsOfInt (toInt_lt_words B)).2

/-! ## The closed form (R143) -/

/-- The fold keeps the residue modulo 4095 and takes its value in 1 to 4095, or 0 at 0. -/
theorem fold12_eq (t : Nat) : fold12 t = if t = 0 then 0 else (t - 1) % 4095 + 1 := by
  induction t using Nat.strong_induction_on with
  | _ t ih =>
    by_cases ht : t < 4096
    · rw [fold12_of_lt ht]
      split <;> omega
    · have hnext : t % 4096 + t / 4096 < t := fold_pass_lt (by omega)
      rw [fold12_pass (Nat.le_of_not_lt ht), ih _ hnext, if_neg (by omega), if_neg (by omega)]
      omega

/-- Two numbers fold to one value exactly when they have one residue modulo 4095 and neither alone is 0. -/
theorem fold12_eq_fold12_iff {t u : Nat} :
    fold12 t = fold12 u ↔ t % 4095 = u % 4095 ∧ (t = 0 ↔ u = 0) := by
  rw [fold12_eq, fold12_eq]
  split <;> split <;> omega

/-- Folding a part of a sum first makes no difference. -/
theorem fold12_fold12_add (x y : Nat) : fold12 (fold12 x + y) = fold12 (x + y) := by
  rw [fold12_eq_fold12_iff, fold12_eq x]
  split <;> omega

/-- The checksum in terms of the integer of the bytes. -/
theorem calc12_eq_not12 (B : List Byte) : calc12 B = not12 (fold12 (Bytes.toInt B)) :=
  congrArg not12 (fold12_eq_fold12_iff.mpr ⟨sumWords_mod B, sumWords_eq_zero_iff B⟩)

theorem calc12_eq (B : List Byte) : calc12 B =
    if Bytes.toInt B = 0 then 4095 else 4094 - (Bytes.toInt B - 1) % 4095 := by
  rw [calc12_eq_not12, fold12_eq, not12]
  split <;> omega

/-- The checksum fits 12 bits (R139). -/
theorem calc12_lt (B : List Byte) : calc12 B < 4096 := by
  rw [calc12_eq]
  split <;> omega

/-- Two byte lists have one checksum exactly when their integers have one residue modulo 4095 and neither alone is
all zero (R140, R143, R144). -/
theorem calc12_eq_calc12_iff {B C : List Byte} : calc12 B = calc12 C ↔
    Bytes.toInt B % 4095 = Bytes.toInt C % 4095 ∧ (Bytes.toInt B = 0 ↔ Bytes.toInt C = 0) := by
  rw [calc12_eq, calc12_eq]
  split <;> split <;> omega

/-- The checksum depends on the integer of the bytes alone (R144). -/
theorem calc12_congr {B C : List Byte} (h : Bytes.toInt B = Bytes.toInt C) : calc12 B = calc12 C :=
  calc12_eq_calc12_iff.mpr ⟨by rw [h], by rw [h]⟩

/-- Settles O51: the residue of the sum, and the closed forms of the fold and of the checksum. -/
theorem checksumHasClosedForm : Obligations.ChecksumHasClosedForm := by
  refine ⟨sumWords_mod, fold12_eq, calc12_eq, fold12_fold12_add, fun B => ?_⟩
  rw [calc12_eq]
  split <;> omega

/-- Settles O50: the closed form is 4095 at the integer 0 and at no other. -/
theorem checksumIsAllOnesIffBufferIsZero : Obligations.ChecksumIsAllOnesIffBufferIsZero := by
  refine fun B => ⟨Nat.le_of_lt_succ (calc12_lt B), ?_⟩
  rw [← Bytes.toInt_eq_zero_iff, calc12_eq]
  split <;> omega

/-- Settles O52: a sum does not depend on the order of the words, and the rest by `calc12_eq_calc12_iff`. -/
theorem checksumMissesTheseChanges : Obligations.ChecksumMissesTheseChanges := by
  refine ⟨fun _ _ => calc12_congr, fun B n => calc12_congr (Bytes.toInt_append_zeros B n), fun B C h => ?_,
    fun B C k hB hC => ?_⟩
  · rw [calc12, sumWords, h.sum_eq]
    rfl
  · exact calc12_eq_calc12_iff.mpr ⟨by omega, by omega⟩

/-! ## One changed byte (R142) -/

/-- A changed byte changes the residue of the integer. Two bytes differ by less than 4095, and 256 has an inverse
modulo 4095, so that the bytes below the changed one do not hide the difference. -/
theorem toInt_mod_ne_of_byte_change {B C : List Byte} {j : Nat} (hlen : B.length = C.length)
    (hother : ∀ k, k ≠ j → B[k]? = C[k]?) (hne : B ≠ C) :
    Bytes.toInt B % 4095 ≠ Bytes.toInt C % 4095 := by
  induction B generalizing C j with
  | nil => exact absurd (List.length_eq_zero_iff.mp hlen.symm).symm hne
  | cons b bs ih =>
    obtain ⟨c, cs, rfl⟩ := List.exists_cons_of_length_eq_add_one hlen.symm
    simp only [Bytes.toInt]
    cases j with
    | zero =>
      obtain rfl : bs = cs := List.ext_getElem? fun k => by simpa using hother (k + 1) (by omega)
      have hbc : b.toNat ≠ c.toNat := fun h => hne (by rw [BitVec.eq_of_toNat_eq h])
      have hb := b.isLt
      have hc := c.isLt
      omega
    | succ j =>
      obtain rfl : b = c := by simpa using hother 0 (by omega)
      have htail := ih (C := cs) (j := j) (by simpa using hlen)
        (fun k hk => by simpa using hother (k + 1) (by omega)) (by simpa using hne)
      omega

theorem calc12_ne_of_byte_change {B C : List Byte} {j : Nat} (hlen : B.length = C.length)
    (hother : ∀ k, k ≠ j → B[k]? = C[k]?) (hne : B ≠ C) : calc12 B ≠ calc12 C :=
  fun h => toInt_mod_ne_of_byte_change hlen hother hne (calc12_eq_calc12_iff.mp h).1

/-! ## EMBED and VERIFY on byte lists -/

/-- A byte list is the value of a field and what stands around it. -/
theorem Bytes.eq_of_extract_of_insert {B C : List Byte} {s w : Nat} (hB : s + w ≤ 8 * B.length)
    (hC : s + w ≤ 8 * C.length) (hfield : extract B s w = extract C s w)
    (haround : insert B s w 0 = insert C s w 0) : B = C :=
  calc B = insert (insert B s w 0) s w (extract B s w) := by rw [insert_insert _ _ hB, insert_extract hB]
    _ = insert (insert C s w 0) s w (extract C s w) := by rw [haround, hfield]
    _ = C := by rw [insert_insert _ _ hC, insert_extract hC]

section Field

variable {B : List Byte} {off w : Nat} (h : off + w ≤ 8 * B.length)
include h

/-- EMBED writes the checksum into the field; that it zeroes the field first does not show (R136). -/
theorem embedBytes_eq_insert : embedBytes B off w = Bytes.insert B off w (checksumZeroed B off w) :=
  Bytes.insert_insert 0 _ h

/-- What the field holds does not change the checksum of the buffer with the field zeroed. -/
theorem checksumZeroed_insert (v : Nat) :
    checksumZeroed (Bytes.insert B off w v) off w = checksumZeroed B off w :=
  congrArg calc12 (Bytes.insert_insert v 0 h)

/-- VERIFY after EMBED compares the checksum with its low `w` bits (R141, R145). -/
theorem verifyBytes_embedBytes :
    verifyBytes (embedBytes B off w) off w = decide (checksumZeroed B off w < 2 ^ w) := by
  rw [verifyBytes, embedBytes_eq_insert h, Bytes.extract_insert_same _ h, checksumZeroed_insert h,
    decide_eq_decide, Nat.mod_eq_iff_lt (Nat.two_pow_pos w).ne']

/-- VERIFY's comparison depends on the integer of the buffer alone (R144). -/
theorem verifyBytes_congr {C : List Byte} (h' : off + w ≤ 8 * C.length) (hint : Bytes.toInt C = Bytes.toInt B) :
    verifyBytes C off w = verifyBytes B off w := by
  have hzeroed : Bytes.toInt (Bytes.insert C off w 0) = Bytes.toInt (Bytes.insert B off w 0) := by
    rw [Bytes.toInt_insert 0 h', Bytes.toInt_insert 0 h, hint]
  have hsum : checksumZeroed C off w = checksumZeroed B off w := calc12_congr hzeroed
  rw [verifyBytes, verifyBytes, decide_eq_decide, hsum, Bytes.extract, Bytes.extract, hint]

section Changed

variable {C : List Byte} (hlen : C.length = B.length) (hv : verifyBytes B off w = true)
include hlen hv

/-- A change of bits of one byte, none of them in the field: the stored value stays and the checksum changes. -/
theorem verifyBytes_eq_false_of_byte_change {j : Nat} (hne : C ≠ B)
    (hwhere : ∀ m, (Bytes.toInt C).testBit m ≠ (Bytes.toInt B).testBit m →
      m / 8 = j ∧ ¬ (off ≤ m ∧ m < off + w)) :
    verifyBytes C off w = false := by
  have h' : off + w ≤ 8 * C.length := by rwa [hlen]
  have hsame (m : Nat) (hm : m / 8 ≠ j ∨ off ≤ m ∧ m < off + w) :
      (Bytes.toInt C).testBit m = (Bytes.toInt B).testBit m :=
    not_not.mp fun hd => hm.elim (· (hwhere m hd).1) (hwhere m hd).2
  have hfield : Bytes.extract C off w = Bytes.extract B off w := by
    apply Nat.eq_of_testBit_eq
    intro i
    rw [Bytes.testBit_extract, Bytes.testBit_extract]
    by_cases hi : i < w
    · rw [hsame _ (.inr (by omega))]
    · simp [hi]
  have hlenz : (Bytes.insert C off w 0).length = (Bytes.insert B off w 0).length := by simp [hlen]
  have hother (k : Nat) (hk : k ≠ j) : (Bytes.insert C off w 0)[k]? = (Bytes.insert B off w 0)[k]? := by
    apply Bytes.getElem?_eq_of_testBit hlenz
    intro i hi
    rw [Bytes.testBit_insert 0 h', Bytes.testBit_insert 0 h, hsame _ (.inl (by omega))]
  have hnez : Bytes.insert C off w 0 ≠ Bytes.insert B off w 0 :=
    fun hzeroed => hne (Bytes.eq_of_extract_of_insert h' h hfield hzeroed)
  rw [verifyBytes_eq_true] at hv
  rw [verifyBytes_eq_false, hfield, hv]
  exact (calc12_ne_of_byte_change hlenz hother hnez).symm

/-- A change inside the field: the stored value changes and the checksum stays. -/
theorem verifyBytes_eq_false_of_field_change (hne : C ≠ B)
    (hout : ∀ m, ¬ (off ≤ m ∧ m < off + w) → (Bytes.toInt C).testBit m = (Bytes.toInt B).testBit m) :
    verifyBytes C off w = false := by
  have h' : off + w ≤ 8 * C.length := by rwa [hlen]
  have hzeroed : Bytes.insert C off w 0 = Bytes.insert B off w 0 := by
    apply Bytes.toInt_injective (by simp [hlen])
    apply Nat.eq_of_testBit_eq
    intro m
    rw [Bytes.testBit_insert 0 h', Bytes.testBit_insert 0 h]
    split
    · rfl
    · exact hout m ‹_›
  rw [verifyBytes_eq_true] at hv
  rw [verifyBytes_eq_false, checksumZeroed, hzeroed]
  exact fun hfield => hne (Bytes.eq_of_extract_of_insert h' h (hfield.trans hv.symm) hzeroed)

end Changed

end Field

/-! ## CALC, EMBED and VERIFY (R135 to R137) -/

/-- Settles O46: CALC has no check, and its effect is its end. -/
theorem calcProducesTheChecksum : Obligations.CalcProducesTheChecksum :=
  fun _ => exec_of_none rfl

/-- A write that keeps the length changes the bytes of the buffer and nothing else of a command that produces a
value. -/
theorem State.finishWith_setBuf (s : State) (v : Wide) {B : List Byte} (h : B.length = s.len) :
    (s.setBuf B).finishWith v = { s.produced v with mem := ((s.setBuf B).finishWith v).mem } := by
  simp [State.finishWith, State.setRes, State.latchOk, State.respond, State.produced, State.setBuf, h]

section InRange

variable {s : State} {a w : Nat} (hw : 1 ≤ w) (hw' : w ≤ 64) (hin : a + w ≤ 8 * s.len)
include hw hw' hin

theorem exec_embed : exec (.embed a w) s =
    .next ((s.setBuf (embedBytes s.buf a w)).finishWith (zext128 (checksumZeroed s.buf a w))) :=
  exec_of_none (State.checkField_eq_none.mpr ⟨hw, hw', hin⟩)

theorem exec_verify : exec (.verify a w) s =
    .next ((s.setVok (verifyBytes s.buf a w)).finishWith (zext128 (verifyBytes s.buf a w).toNat)) :=
  exec_of_none (State.checkField_eq_none.mpr ⟨hw, hw', hin⟩)

/-- VERIFY of a buffer whose comparison has a known outcome. -/
theorem exec_verify_of_eq {v : Bool} (hv : verifyBytes s.buf a w = v) :
    exec (.verify a w) s = .next { s.produced (zext128 v.toNat) with vok := v } := by
  rw [exec_verify hw hw' hin, hv]
  rfl

end InRange

/-- A VERIFY that ended without an error was in range, and `VOK` holds the outcome of its comparison. -/
theorem verify_of_ok {s t : State} {a w : Nat} (ht : exec (.verify a w) s = .next t) (hok : t.err = .ok) :
    (1 ≤ w ∧ w ≤ 64 ∧ a + w ≤ 8 * s.len) ∧ t.vok = verifyBytes s.buf a w := by
  obtain ⟨e, hc, rfl⟩ | ⟨hc, rfl⟩ := exec_cases ht
  · obtain rfl : e = .ok := hok
    exact absurd hc (checkOf_ne_ok _ s)
  · exact ⟨State.checkField_eq_none.mp hc, rfl⟩

/-- Settles O47: the two errors, and the stored buffer, which is the old one with the checksum in the field. -/
theorem embedStoresTheChecksum : Obligations.EmbedStoresTheChecksum := by
  intro s a w
  refine ⟨exec_of_bad_width rfl, exec_of_bad_range rfl, fun hw hw' hin => ?_⟩
  have hstored : embedBytes s.buf a w = Bytes.insert s.buf a w (checksumZeroed s.buf a w) :=
    embedBytes_eq_insert (by rwa [s.buf_length])
  refine ⟨_, _, exec_embed hw hw' hin, rfl, ?_, fun n => ?_, fun k hk => ?_⟩
  · exact s.finishWith_setBuf _ ((embedBytes_length ..).trans s.buf_length)
  · rw [State.finishWith_readBit, hstored]
    exact s.readBit_setBuf_insert _ hin n
  · rw [State.finishWith_readByte, hstored]
    exact s.readByte_setBuf_insert _ hin hk

/-- Settles O48: the two errors, and the two outcomes of the comparison by `exec_verify_of_eq`. -/
theorem verifyComparesStoredWithRecomputed : Obligations.VerifyComparesStoredWithRecomputed := by
  intro s a w
  refine ⟨exec_of_bad_width rfl, exec_of_bad_range rfl, fun hw hw' hin => ⟨fun heq => ?_, fun hne => ?_⟩⟩
  · exact exec_verify_of_eq hw hw' hin ((verifyBytes_eq_true ..).mpr heq)
  · exact exec_verify_of_eq hw hw' hin ((verifyBytes_eq_false ..).mpr hne)

/-! ## VERIFY after EMBED (R141, R145) -/

/-- EMBED and then VERIFY at one place: both end without an error, and VERIFY finds whether the checksum fits the
width. -/
theorem exec_embed_verify {s : State} {a w : Nat} (hw : 1 ≤ w) (hw' : w ≤ 64) (hin : a + w ≤ 8 * s.len) :
    ∃ t u, exec (.embed a w) s = .next t ∧ exec (.verify a w) t = .next u ∧
      t.buf = Bytes.insert s.buf a w (checksumZeroed s.buf a w) ∧ t.res = zext128 (checksumZeroed s.buf a w) ∧
      u.err = .ok ∧ u.vok = decide (checksumZeroed s.buf a w < 2 ^ w) ∧ u.res = zext128 u.vok.toNat := by
  have hbuf : a + w ≤ 8 * s.buf.length := by rwa [s.buf_length]
  refine ⟨_, _, exec_embed hw hw' hin, exec_verify hw hw' (by simpa using hin), ?_, rfl, rfl, ?_, rfl⟩
  · rw [State.finishWith_buf, State.buf_setBuf, embedBytes_eq_insert hbuf]
  · rw [State.finishWith_vok, State.setVok_vok, State.finishWith_buf, State.buf_setBuf,
      verifyBytes_embedBytes hbuf]

/-- Settles O54: the checksum fits every width of 12 or more. -/
theorem verifyAfterEmbedSucceeds : Obligations.VerifyAfterEmbedSucceeds := by
  intro s a w hw hw' hin
  obtain ⟨t, u, ht, hu, -, -, herr, hvok, hres⟩ := exec_embed_verify (by omega) hw' hin
  have hfits : checksumZeroed s.buf a w < 2 ^ w :=
    (calc12_lt _).trans_le (Nat.pow_le_pow_right (n := 2) (by decide) hw)
  rw [decide_eq_true hfits] at hvok
  exact ⟨t, u, ht, hu, herr, hvok, by rw [hres, hvok]; rfl⟩

/-- Settles O55: `exec_embed_verify` for the two commands together, and a stored value that VERIFY accepts is a
checksum. -/
theorem otherWidthsComposeLiterally : Obligations.OtherWidthsComposeLiterally := by
  intro s a w hw hw' hin
  constructor
  · obtain ⟨t, u, ht, hu, hbuf, hval, -, hvok, hres⟩ := exec_embed_verify hw hw' hin
    refine ⟨t, u, _, ht, hu, rfl, ?_, ?_, fun hfits => ?_, fun hlarge => ?_⟩
    · rw [hval]
      exact zext128_toNat ((calc12_lt _).trans (by decide))
    · rw [hbuf]
      exact Bytes.extract_insert_same _ (by rwa [s.buf_length])
    · rw [hres, hvok, checksumZeroed, decide_eq_true hfits]
      exact ⟨rfl, rfl⟩
    · rw [hres, hvok, checksumZeroed, decide_eq_false (Nat.not_lt.mpr hlarge)]
      exact ⟨rfl, rfl⟩
  · intro v hv hvok
    obtain rfl := Host.Outcome.next.inj ((exec_verify hw hw' hin).symm.trans hv)
    rw [(verifyBytes_eq_true ..).mp hvok]
    exact calc12_lt _

/-! ## Changes that VERIFY does not see, and changes that it sees (R142, R144) -/

/-- Settles O53: the longer buffer has the same integer, on which alone VERIFY's comparison depends. -/
theorem trailingZerosDoNotChangeVerify : Obligations.TrailingZerosDoNotChangeVerify := by
  intro s n a w hlen hmax hw hw' hin
  have hgrown : a + w ≤ 8 * n := hin.trans (Nat.mul_le_mul_left 8 hlen)
  have hsame : verifyBytes (Bytes.resize s.buf n) a w = verifyBytes s.buf a w :=
    verifyBytes_congr (by rwa [s.buf_length]) (by rwa [Bytes.resize_length])
      (Bytes.toInt_resize (by rwa [s.buf_length]))
  refine ⟨_, _, _, exec_setlen hmax, exec_verify hw hw' (by simpa using hgrown), exec_verify hw hw' hin,
    rfl, rfl, ?_, ?_⟩ <;> simp [hsame]

/-- What a changed buffer of the same length makes of a VERIFY that gave 1, if the comparison sees the change. -/
theorem exec_verify_of_detected {s s' t : State} {a w : Nat} (ht : exec (.verify a w) s = .next t)
    (hok : t.err = .ok) (hvok : t.vok = true) (hlen : s'.len = s.len)
    (hdetect : a + w ≤ 8 * s.buf.length → verifyBytes s.buf a w = true → verifyBytes s'.buf a w = false) :
    ∃ t', exec (.verify a w) s' = .next t' ∧ t'.err = .ok ∧ t'.vok = false ∧ t'.res = 0 := by
  obtain ⟨⟨hw, hw', hin⟩, hverified⟩ := verify_of_ok ht hok
  have hfails := hdetect (by rwa [s.buf_length]) (hverified.symm.trans hvok)
  exact ⟨_, exec_verify_of_eq hw hw' (hlen ▸ hin) hfails, rfl, rfl, rfl⟩

/-- Settles O56: a flipped bit of the field changes the stored value alone, any other bit the checksum alone. -/
theorem singleBitFlipIsDetected : Obligations.SingleBitFlipIsDetected := by
  intro s s' t a n ht hok hvok hlen _ hflip
  refine exec_verify_of_detected ht hok hvok hlen fun hin hv => ?_
  have hlen' : s'.buf.length = s.buf.length := by simpa using hlen
  simp only [State.readBit_eq_testBit] at hflip
  have hne : s'.buf ≠ s.buf := fun h => by simpa [h] using hflip n
  by_cases hn : a ≤ n ∧ n < a + 12
  · refine verifyBytes_eq_false_of_field_change hin hlen' hv hne fun m hm => ?_
    have hmn : m ≠ n := fun h => hm (h ▸ hn)
    simp [hflip, hmn]
  · refine verifyBytes_eq_false_of_byte_change (j := n / 8) hin hlen' hv hne fun m hm => ?_
    obtain rfl : m = n := not_not.mp fun hmn => hm (by simp [hflip, hmn])
    exact ⟨rfl, hn⟩

/-- Settles O57: the changed bits lie in one byte, which holds no bit of the field. -/
theorem singleByteChangeIsDetected : Obligations.SingleByteChangeIsDetected := by
  intro s s' t a j ht hok hvok hlen _ hout hchanged hother
  refine exec_verify_of_detected ht hok hvok hlen fun hin hv => ?_
  have hlen' : s'.buf.length = s.buf.length := by simpa using hlen
  have hne : s'.buf ≠ s.buf := fun h => hchanged (by rw [s'.readByte_eq, s.readByte_eq, h])
  refine verifyBytes_eq_false_of_byte_change (j := j) hin hlen' hv hne fun m hm => ?_
  have hbyte : m / 8 = j := by
    by_contra hk
    refine hm ?_
    rw [← s'.readBit_eq_testBit, ← s.readBit_eq_testBit, State.readBit, State.readBit, hother _ hk]
  exact ⟨hbyte, by omega⟩

end Sys2Proof.Machine

/-! # Buffer and control: SETLEN, LDB, RDB, SETLAYOUT, CLRERR, RDCSR (spec/42_buffer_control.md) -/

namespace Sys2Proof.Machine

/-! ## SETLEN (R160) -/

/-- A byte of the resized list: kept below both lengths, 0 above the old one. -/
theorem Bytes.getElem?_resize (B : List Byte) (n a : Nat) : (Bytes.resize B n)[a]? =
    if a < n then (if a < B.length then B[a]? else some 0) else none := by
  by_cases hn : a < n
  · rw [if_pos hn, Bytes.resize]
    split
    case isTrue hcut => rw [if_pos (hn.trans_le hcut), List.getElem?_take_of_lt hn]
    case isFalse hgrow =>
      by_cases ha : a < B.length
      · rw [if_pos ha, List.getElem?_append_left ha]
      · rw [if_neg ha, List.getElem?_append_right (Nat.le_of_not_lt ha), List.getElem?_replicate,
          if_pos (by omega)]
  · rw [if_neg hn]
    exact List.getElem?_eq_none (by simpa using hn)

/-- Settles O19: the error, and the bytes of the resized buffer by `Bytes.getElem?_resize`. -/
theorem setlenTruncatesOrZeroExtends : Obligations.SetlenTruncatesOrZeroExtends := by
  intro s n
  refine ⟨fun h => exec_of_some ((s.checkLength_eq_some n).mpr h), fun h => ?_⟩
  refine ⟨_, exec_setlen h, ?_, fun a => ?_⟩
  · simp [State.finish, State.latchOk, State.respond, State.completed, State.setBuf]
  · rw [State.finish_readByte, State.readByte_setBuf, Bytes.getElem?_resize, s.buf_length, s.readByte_eq]

/-! ## LDB and RDB, as byte accesses and as field accesses (R161, R162) -/

/-- The integer after a byte write: what stands below it, the value, what stands above it. -/
theorem Bytes.toInt_memWrite {B : List Byte} {addr n : Nat} (v : Nat) (h : addr + n ≤ B.length) :
    toInt (memWrite B addr n v) =
      toInt (B.take addr) +
        2 ^ (8 * addr) * (v % 2 ^ (8 * n) + 2 ^ (8 * n) * toInt (B.drop (addr + n))) := by
  have htake : (B.take addr).length = addr := List.length_take_of_le (by omega)
  rw [memWrite, List.append_assoc, toInt_append, toInt_append, toInt_ofInt, htake, ofInt_length]

/-- A byte write is the write of the field of its bits. -/
theorem Bytes.memWrite_eq_insert {B : List Byte} {addr n : Nat} (v : Nat) (h : addr + n ≤ B.length) :
    memWrite B addr n v = insert B (8 * addr) (8 * n) v := by
  have hbelow : toInt (B.take addr) < 2 ^ (8 * addr) := toInt_take_lt (by omega)
  have hlow : toInt B % 2 ^ (8 * addr) = toInt (B.take addr) := by
    rw [toInt_bytes h, Nat.add_mul_mod_self_left, Nat.mod_eq_of_lt hbelow]
  have hhigh : toInt B / 2 ^ (8 * addr + 8 * n) = toInt (B.drop (addr + n)) := by
    rw [toInt_bytes h, Nat.pow_add, ← Nat.div_div_eq_div_mul,
      Nat.add_mul_div_left _ _ (Nat.two_pow_pos _), Nat.div_eq_of_lt hbelow, Nat.zero_add,
      Nat.add_mul_div_left _ _ (Nat.two_pow_pos _), Nat.div_eq_of_lt (memRead_lt h), Nat.zero_add]
  apply toInt_injective
  · rw [memWrite_length v h, insert_length]
  · rw [toInt_memWrite v h, toInt_insert v (by omega), hlow, hhigh, Nat.pow_add]
    ring

/-- The check of a byte address is that of the bit range of the byte. -/
theorem State.checkByte_eq_checkField (s : State) (a : Nat) : s.checkByte a = s.checkField (8 * a) 8 := by
  rw [s.checkField_range _ (by decide) (by decide), State.checkByte, State.checkBits]
  exact if_congr (by omega) rfl rfl

/-- Commands with the same check, and with the same effect where it finds no error, end alike. -/
theorem exec_congr_of_check {i j : Instr} {s : State} (hcheck : checkOf i s = checkOf j s)
    (heffect : checkOf i s = none → effectOf i s = effectOf j s) : exec i s = exec j s := by
  cases hc : checkOf i s with
  | some e => rw [exec_of_some hc, exec_of_some (hcheck.symm.trans hc)]
  | none => rw [exec_of_none hc, exec_of_none (hcheck.symm.trans hc), heffect hc]

/-- Settles O35: one check for both, and where it passes, the byte is the field of its bits. -/
theorem byteAccessIsFieldAccess : Obligations.ByteAccessIsFieldAccess := by
  intro s a b
  have hin (hc : s.checkByte a = none) : a + 1 ≤ s.buf.length := by
    rwa [s.buf_length, Nat.succ_le_iff, ← s.checkByte_eq_none]
  constructor <;> refine exec_congr_of_check (s.checkByte_eq_checkField a) fun hc => ?_
  · simp only [effectOf]
    rw [Bytes.memWrite_eq_insert _ (hin hc), BitVec.toNat_setWidth_of_le (by decide)]
  · simp only [effectOf]
    rw [Bytes.memRead_eq_extract (hin hc)]

/-- LDB and RDB at `LEN` or above (R183). -/
theorem exec_of_bad_address {i : Instr} {s : State} {a : Nat} (hcheck : checkOf i s = s.checkByte a)
    (h : s.len ≤ a) : exec i s = .next (s.failedWith .range) :=
  exec_of_some (hcheck.trans ((s.checkByte_eq_some a).mpr h))

theorem exec_ldb {s : State} {a : Nat} (b : Byte) (h : a < s.len) :
    exec (.ldb a b) s = .next (s.setBuf (Bytes.memWrite s.buf a 1 b.toNat)).finish :=
  exec_of_none ((s.checkByte_eq_none a).mpr h)

theorem exec_rdb {s : State} {a : Nat} (h : a < s.len) :
    exec (.rdb a) s = .next (s.finishWith (zext128 (Bytes.memRead s.buf a 1))) :=
  exec_of_none ((s.checkByte_eq_none a).mpr h)

/-- A stored byte, and the bytes beside it, by the field of its bits. -/
theorem Bytes.getElem?_memWrite_byte {B : List Byte} {a : Nat} (b : Byte) (h : a < B.length) (k : Nat) :
    (memWrite B a 1 b.toNat)[k]? = if k = a then some b else B[k]? := by
  split
  case isTrue hk =>
    subst hk
    simpa [ofInt] using getElem?_memWrite_inside b.toNat h Nat.one_pos
  case isFalse hk =>
    rw [memWrite_eq_insert _ h, getElem?_insert_outside _ (by omega) (by omega)]

/-- Settles O20: the error, and every byte of the stored buffer by `Bytes.getElem?_memWrite_byte`. -/
theorem ldbStoresOneByte : Obligations.LdbStoresOneByte := by
  intro s a b
  refine ⟨exec_of_bad_address rfl, fun h => ?_⟩
  have hbyte (k : Nat) : (s.setBuf (Bytes.memWrite s.buf a 1 b.toNat)).finish.readByte k =
      if k = a then some b else s.readByte k := by
    rw [State.finish_readByte, State.readByte_setBuf, Bytes.getElem?_memWrite_byte b (by simpa using h),
      s.readByte_eq]
  exact ⟨_, exec_ldb b h, s.finish_setBuf (s.memWrite_buf_length _ h),
    (hbyte a).trans (if_pos rfl), fun k hk => (hbyte k).trans (if_neg hk)⟩

/-- A byte access of one byte is that byte. -/
theorem Bytes.memRead_byte {B : List Byte} {a : Nat} {b : Byte} (h : B[a]? = some b) :
    memRead B a 1 = b.toNat := by
  obtain ⟨hlt, rfl⟩ := List.getElem?_eq_some_iff.mp h
  rw [memRead, List.drop_eq_getElem_cons hlt, List.take_succ_cons, List.take_zero]
  rfl

/-- Settles O21: the error, and the byte read by `Bytes.memRead_byte`. -/
theorem rdbProducesTheByte : Obligations.RdbProducesTheByte := by
  intro s a
  refine ⟨exec_of_bad_address rfl, fun h => ?_⟩
  obtain ⟨b, hb⟩ : ∃ b, s.buf[a]? = some b := ⟨_, List.getElem?_eq_getElem (by simpa using h)⟩
  refine ⟨b, (s.readByte_eq a).trans hb, ?_⟩
  rw [exec_rdb h, Bytes.memRead_byte hb, zext128, BitVec.ofNat_toNat]
  rfl

/-! ## SETLAYOUT and CLRERR (R163, R164) -/

theorem checkLayout_eq_some (l : Nat) : checkLayout l = some .name ↔ 1 < l := by
  simp [checkLayout, Layout.ofNumber_isNone]

/-- Settles O22: the two layouts by evaluation, and any other number by its check. -/
theorem setlayoutSelectsTheTable : Obligations.SetlayoutSelectsTheTable := by
  intro s
  exact ⟨exec_of_none rfl, exec_of_none rfl, fun l h => exec_of_some ((checkLayout_eq_some l).mpr h)⟩

/-- Settles O23: CLRERR has no check, and its effect clears the flag. -/
theorem clrerrClearsTheStickyFlag : Obligations.ClrerrClearsTheStickyFlag :=
  fun _ => exec_of_none rfl

/-! ## RDCSR (R165) -/

theorem State.checkCsr_eq_some (s : State) (c : Nat) : s.checkCsr c = some .name ↔ 3 < c := by
  simp [State.checkCsr, State.csr_isNone]

/-- A number that names a register with a value (R25). -/
theorem exec_rdcsr {s : State} {c v : Nat} (h : s.csr c = some v) :
    exec (.rdcsr c) s = .next (s.produced (zext128 v)) := by
  have hc : checkOf (.rdcsr c) s = none := by simp [checkOf, State.checkCsr, h]
  rw [exec_of_none hc, effectOf, h]
  rfl

/-- Settles O24: the value of each register as the table of R25 gives it, and any other number by its check. -/
theorem rdcsrProducesTheOldValue : Obligations.RdcsrProducesTheOldValue := by
  intro s
  refine ⟨?_, exec_rdcsr rfl, ?_, exec_rdcsr rfl, fun c h => exec_of_some ((s.checkCsr_eq_some c).mpr h)⟩
  · rw [exec_rdcsr (c := 0) rfl, State.statusValue, Bool.toNat, Bool.toNat, Bool.cond_eq_ite,
      Bool.cond_eq_ite]
    rfl
  · rw [exec_rdcsr (c := 2) rfl]
    cases s.layout <;> rfl

end Sys2Proof.Machine

/-! # Exceptions: the code of a command, what an error leaves as it was, and the answers of a run
(spec/60_exceptions.md) -/

namespace Sys2Proof.Machine

/-! ## The two ends of a command word (R185, R186) -/

/-- A command word is taken from the host, and then it either raises an error, which for a word that decodes is the
one that its check found, or has the effect of the command it decodes to. -/
theorem step_command_cases {s t : State} {c : CmdWord} {rest : List Input}
    (hp : s.pending = .command c :: rest) (h : step s = .next t) :
    (∃ e, e ≠ .ok ∧ (∀ i, decode c = .ok i → checkOf i { s with pending := rest } = some e) ∧
      t = State.raiseErr { s with pending := rest } e) ∨
    (∃ i, decode c = .ok i ∧ t = effectOf i { s with pending := rest }) := by
  cases hd : decode c with
  | error e =>
    rw [step_of_reserved hp hd] at h
    exact .inl ⟨.op, by decide, by simp, (Host.Outcome.next.inj h).symm⟩
  | ok i =>
    rw [stepRunsTheDecodedCommand s c rest i hp hd] at h
    obtain ⟨e, hc, rfl⟩ | ⟨-, rfl⟩ := exec_cases h
    · have he : e ≠ .ok := fun hok => checkOf_ne_ok i _ (hok ▸ hc)
      exact .inl ⟨e, he, fun j hj => Except.ok.inj hj ▸ hc, rfl⟩
    · exact .inr ⟨i, rfl, rfl⟩

/-- Settles O12: an effect latches `ok`, and an error changes nothing but `STATUS` and the responses. -/
theorem errorHasNoEffectOnData : Obligations.ErrorHasNoEffectOnData := by
  intro s t c rest hp h herr
  obtain ⟨e, -, -, rfl⟩ | ⟨i, -, rfl⟩ := step_command_cases hp h
  · exact ⟨rfl, fun _ => rfl, rfl, rfl, rfl, rfl⟩
  · exact absurd (effectOf_err ..) herr

/-- Settles O13: an error sets the sticky flag and is not the end of CLRERR, which has no check; an effect keeps the
flag, but for that of CLRERR, which clears it. -/
theorem statusIsLatchedByEveryCommand : Obligations.StatusIsLatchedByEveryCommand := by
  intro s t c rest hp h
  obtain ⟨e, he, hcheck, rfl⟩ | ⟨i, hd, rfl⟩ := step_command_cases hp h
  · exact ⟨⟨0, rfl⟩, fun _ => rfl, fun hok => absurd hok he, fun hclr => nomatch hcheck _ hclr⟩
  · refine ⟨⟨_, effectOf_responses ..⟩, fun herr => absurd (effectOf_err ..) herr,
      fun _ hne => ?_, fun hclr => ?_⟩
    · exact effectOf_serr fun hi => hne (hi ▸ hd)
    · obtain rfl : i = .clrerr := Except.ok.inj (hd.symm.trans hclr)
      exact ⟨rfl, rfl⟩

/-! ## The first error of a command (R181 to R184, R187)

`expectedErr` is written from the rules and calls no check: each check of the machine finds the error that the rule
gives. -/

/-- A check that guards one error, as a code. -/
theorem guard_getD (p : Prop) [Decidable p] (e : Err) :
    (if p then some e else none).getD .ok = if p then e else .ok := by
  split <;> rfl

/-- Width, then range. -/
theorem State.checkField_getD (s : State) (a w : Nat) : (s.checkField a w).getD .ok = bitRangeErr s a w := by
  by_cases hw : w = 0 ∨ 64 < w
  · rw [s.checkField_width a hw, bitRangeErr, if_pos hw, Option.getD_some]
  · rw [s.checkField_range a (by omega) (by omega), bitRangeErr, if_neg hw]
    exact guard_getD _ _

/-- The names that a layout lacks: those above 18, and the tail's under H16 (R184). -/
theorem lookup_eq_none_iff {l : Layout} {id : Nat} : lookup l id = none ↔ id > 18 ∨ (id > 15 ∧ l = .h16) := by
  rw [lookup_eq, List.getElem?_eq_none_iff, List.length_map]
  cases l with
  | h16 =>
    have hlen : (fieldTable .h16).length = 16 := rfl
    simp only [hlen, and_true]
    omega
  | h20 =>
    have hlen : (fieldTable .h20).length = 19 := rfl
    simp only [hlen, reduceCtorEq, and_false, or_false]
    omega

/-- A row of either layout stands at its id in the longer table (R71, R72). -/
theorem getElem?_fieldTable_h20 {l : Layout} {id : Nat} {r : FieldEntry} (h : (fieldTable l)[id]? = some r) :
    (fieldTable .h20)[id]? = some r := by
  cases l with
  | h16 => exact (List.getElem?_append_left (List.getElem?_eq_some_iff.mp h).1).trans h
  | h20 => exact h

/-- The table of the bits after the fields agrees with the places of the rows. -/
theorem fieldEnd_of_lookup {l : Layout} {id start w : Nat} (h : lookup l id = some (start, w)) :
    fieldEnd.getD id 0 = start + w := by
  obtain ⟨r, hr, rfl, rfl⟩ := lookup_eq_some_iff.mp h
  have hends : fieldEnd = (fieldTable .h20).map fun r => r.start + r.width := rfl
  rw [hends, List.getD_eq_getElem?_getD, List.getElem?_map, getElem?_fieldTable_h20 hr]
  rfl

/-- Name, then range. -/
theorem State.checkNamed_getD (s : State) (id : Nat) : (s.checkNamed id).getD .ok = fieldErr s id := by
  cases hl : lookup s.layout id with
  | none => rw [s.checkNamed_none hl, fieldErr, if_pos (lookup_eq_none_iff.mp hl), Option.getD_some]
  | some place =>
    have hname : ¬ (id > 18 ∨ (id > 15 ∧ s.layout = .h16)) := fun h => by
      simp [lookup_eq_none_iff.mpr h] at hl
    rw [s.checkNamed_some hl, fieldErr, if_neg hname, fieldEnd_of_lookup hl]
    exact guard_getD _ _

/-- The check of every command of the table finds the error that the rules give it. -/
theorem checkOf_getD (i : Instr) (s : State) : (checkOf i s).getD .ok = expectedErr s i := by
  cases i with
  | setlen _ | ldb _ _ | rdb _ | rd128 | wr128 _ => exact guard_getD _ _
  | clrerr | calc12 => rfl
  | setlayout l => simp [checkOf, checkLayout, expectedErr, Layout.ofNumber_isNone, guard_getD]
  | rdcsr c => simp [checkOf, State.checkCsr, expectedErr, State.csr_isNone, guard_getD]
  | extract a w | set a w _ | embed a w | verify a w => exact s.checkField_getD a w
  | frd f | fwr f _ => exact s.checkNamed_getD f

/-- A command latches the error of its check, or `ok` where there is none. -/
theorem exec_err (i : Instr) (s : State) : ∃ t, exec i s = .next t ∧ t.err = (checkOf i s).getD .ok := by
  cases hc : checkOf i s with
  | some e => exact ⟨_, exec_of_some hc, rfl⟩
  | none => exact ⟨_, exec_of_none hc, effectOf_err ..⟩

/-- Settles O14: a reserved opcode before anything else, and then the check of the command. -/
theorem everyCommandReportsTheFirstError : Obligations.EveryCommandReportsTheFirstError := by
  intro s c rest hp
  cases hd : decode c with
  | error e => exact ⟨_, step_of_reserved hp hd, rfl⟩
  | ok i =>
    rw [stepRunsTheDecodedCommand s c rest i hp hd]
    obtain ⟨t, ht, herr⟩ := exec_err i { s with pending := rest }
    exact ⟨t, ht, herr.trans (checkOf_getD ..)⟩

/-! ## The answers of a run (R190, R221) -/

/-- One step takes the oldest input, and answers it if it is a command word. -/
theorem step_of_input {s : State} {x : Input} {rest : List Input} (hp : s.pending = x :: rest) :
    ∃ t, step s = .next t ∧ t.pending = rest ∧
      t.responses.length = s.responses.length + ([x].filter fun x => x != .reset).length := by
  cases x with
  | reset => exact ⟨_, step_of_reset hp, rfl, rfl⟩
  | command c =>
    obtain ⟨t, v, ht, hrest, hresp, -⟩ := everyCommandGivesOneResponse s c rest hp
    exact ⟨t, ht, hrest, by rw [hresp, List.length_append]; rfl⟩

theorem run_succ_of_step {s t : State} (h : step s = .next t) (k : Nat) :
    Host.Core.run core (k + 1) s = Host.Core.run core k t := by
  simp only [Host.Core.run, show core.step s = .next t from h]

/-- Settles O18, by induction on the inputs: each step takes the oldest (`step_of_input`). -/
theorem runAnswersEveryCommandOnce : Obligations.RunAnswersEveryCommandOnce := by
  intro s
  induction hp : s.pending generalizing s with
  | nil => exact ⟨s, rfl, hp, rfl⟩
  | cons x rest ih =>
    obtain ⟨u, hu, hrest, hresp⟩ := step_of_input hp
    obtain ⟨t, ht, hnone, hlen⟩ := ih u hrest
    refine ⟨t, (run_succ_of_step hu _).trans ht, hnone, ?_⟩
    rw [hlen, hresp, Nat.add_assoc, ← List.length_append, ← List.filter_append]
    rfl

end Sys2Proof.Machine

/-! # Reset: the commands on an empty buffer (spec/70_reset_and_hazards.md R211) -/

namespace Sys2Proof.Machine

section EmptyBuffer

variable {i : Instr} {s : State} (hlen : s.len = 0)
include hlen

/-- A command with a bit range: its width is wrong, or it has at least one bit and no bit exists. -/
theorem exec_bitRange_of_empty {a w : Nat} (hcheck : checkOf i s = s.checkField a w) :
    ∃ e, (e = .range ∨ e = .width) ∧ exec i s = .next (s.failedWith e) := by
  by_cases hw : w = 0 ∨ 64 < w
  · exact ⟨.width, .inr rfl, exec_of_bad_width hcheck hw⟩
  · exact ⟨.range, .inl rfl, exec_of_bad_range hcheck (by omega) (by omega) (by omega)⟩

/-- A command with a field name: the layout lacks the name, or its field has at least one bit and no bit exists. -/
theorem exec_named_of_empty {f : Nat} (hcheck : checkOf i s = s.checkNamed f) :
    ∃ e, (e = .range ∨ e = .name) ∧ exec i s = .next (s.failedWith e) := by
  cases hl : lookup s.layout f with
  | none => exact ⟨.name, .inr rfl, exec_of_some (hcheck.trans (s.checkNamed_none hl))⟩
  | some place =>
    obtain ⟨hw, hw'⟩ := lookup_width hl
    have hfield := hcheck.trans (State.checkNamed_eq_checkField hl)
    exact ⟨.range, .inl rfl, exec_of_bad_range hfield hw hw' (by omega)⟩

/-- The checksum of no bytes is the complement of the empty sum (R140). -/
theorem exec_calc12_of_empty : exec .calc12 s = .next (s.produced 0xFFF) := by
  have hbuf : s.buf = [] := List.eq_nil_of_length_eq_zero (s.buf_length.trans hlen)
  rw [calcProducesTheChecksum s, hbuf]
  rfl

end EmptyBuffer

/-- Settles O40: each command by the lemma about its check, as no byte and no bit exists. -/
theorem emptyBufferCommandsFail : Obligations.EmptyBufferCommandsFail := by
  intro s hlen
  have haddr (a : Nat) : s.len ≤ a := hlen.le.trans a.zero_le
  have hshort : s.len < 16 := hlen.trans_lt (by decide)
  exact ⟨fun a _ => exec_of_bad_address rfl (haddr a), fun a => exec_of_bad_address rfl (haddr a),
    fun _ _ => exec_bitRange_of_empty hlen rfl, fun _ _ _ => exec_bitRange_of_empty hlen rfl,
    fun _ => exec_named_of_empty hlen rfl, fun _ _ => exec_named_of_empty hlen rfl,
    exec_of_short_buffer rfl hshort, fun _ => exec_of_short_buffer rfl hshort,
    fun _ _ => exec_bitRange_of_empty hlen rfl, fun _ _ => exec_bitRange_of_empty hlen rfl,
    exec_calc12_of_empty hlen⟩

end Sys2Proof.Machine
